-- ==== Sys2Proof/Word.lean ====
section
/-!
DEFINITION. The word types of pixel_averager: a register-port word or pixel (00_scope.md rule R4,
`REGW` = `PW` = 32), a channel (`CW` = 8) and a 16-bit dimension (`DIMW` = 16).
-/

namespace Sys2Proof

/-- A 32-bit word: a pixel, a register-port datum or a command word (rules R4, R11, R60). -/
abbrev Word := BitVec 32

/-- One 8-bit channel of a pixel (rules R4, R11). -/
abbrev Channel := BitVec 8

/-- A dimension, factor or distance register: `DIMW` = 16 bits (rule R4). -/
abbrev Dim := BitVec 16

end Sys2Proof
end

