-- ==== Sys2Proof/Config.lean ====
section
/-!
DEFINITION. What an implementation fixes and the free values (00_scope.md rule R4,
93_implementation_defined.md U9 and U14).
-/

namespace Sys2Proof

/-- `MEMWORDS` of `State.reset`. The parameter is OPEN (rule R4); 0x1000 is what the conventions of
95_test_vectors.md use. DESIGN CHOICE (log entry 3), unsafe for a statement about the reset state
alone: every statement about all states quantifies over the field `memWords`. -/
def Config.resetMemWords : Nat := 0x1000

/-- FREE VALUE: the power-up content of the `PMEM` word at an address, for a given seed
(93_implementation_defined.md U9: an arbitrary but fixed content). It has no body, so nothing can
be proved of it. Only a host read (`MR`) of a word never written returns it (log entry 5). -/
opaque Config.powerUpWord : Nat → Nat → Word

end Sys2Proof
end

