-- ==== Sys2Proof/Syntax.lean ====
section
/-!
DEFINITION. The four commands of spec/opcode_table.json, the eleven registers, and what the host
can do (30_encoding.md rules R60, R61, R64, R73; 10_state.md rule R14).
-/

namespace Sys2Proof

/-- The commands: one constructor per row of the opcode table (rule R64). Format C has no operand
field (rule R63): the operands are the operand registers (rule R65). -/
inductive Instr where
  /-- `SQUASH`, strided subsampling (rules R100 to R102). -/
  | squash
  /-- `COLORROT`, channel rotation (rules R105 to R107). -/
  | colorrot
  /-- `BLUR`, box blur (rules R110 to R116). -/
  | blur
  /-- `EXPAND`, doubling with interpolation (rules R120 to R127). -/
  | expand
deriving DecidableEq, Repr

/-- The eleven registers of the register block, in the order of their offsets (rule R14). -/
inductive Reg where
  | cmd | status
  | srcBase | srcWidth | srcHeight
  | dstBase | dstWidth | dstHeight
  | xfac | yfac | blurDist
deriving DecidableEq, Repr

/-- The four channels of a pixel, in the order of the selector `which` of `DECODE_CH`
(rules R70, R80). -/
inductive ChannelSel where
  | red | green | blue | alpha
deriving DecidableEq, Repr

/-- One action of the world outside the core: the host's transactions and statements (rules R61,
R73, R74) and the reset input (rule R160). Offsets and addresses are naturals, so that a reserved
offset or an address past the memory can be written down. -/
inductive Action where
  /-- `WR(off, w)`: a write of a whole 32-bit word to a register offset. -/
  | wr (off : Nat) (w : Word)
  /-- `RD(off)`: a read of a whole 32-bit word from a register offset. -/
  | rd (off : Nat)
  /-- A register access, read or write, that is not a whole 32-bit word (rule R71 (b)). -/
  | partialAccess (off : Nat)
  /-- `MW addr, value`: the host writes a `PMEM` word by its own means. -/
  | mw (addr : Nat) (v : Word)
  /-- `MR addr`: the host reads a `PMEM` word by its own means. -/
  | mr (addr : Nat)
  /-- `WAIT`: `RD STATUS` repeated until bit 1 (`DONE`) of the word read is 1 (rule R74). -/
  | wait
  /-- The reset input `rst` is asserted (rules R160, R162). -/
  | rst
deriving DecidableEq, Repr

/-- One free choice, used only while `BUSY = 1`: the outside world moves, or the core takes its
next step, picking from `PENDING` by the number `n` (rule R68: which index is next is not fixed). -/
inductive Turn where
  | host
  | core (n : Nat)
deriving DecidableEq, Repr

end Sys2Proof
end

