-- ==== Sys2Proof/WellFormed.lean ====
section
/-!
DEFINITION. Well-formedness of commands and of host actions (30_encoding.md rules R63, R71;
10_state.md rule R14; 20_memory.md rule R40).
-/

namespace Sys2Proof

/-- A command has no register, immediate or mode field (rule R63), so every constructor is
well formed. -/
def Instr.wellFormed : Instr → Bool
  | .squash => true
  | .colorrot => true
  | .blur => true
  | .expand => true

/-- The offsets of the register block: multiples of 4 from `0x00` to `0x28` (rules R14, R47). -/
def offsetWellFormed (off : Nat) : Bool := off % 4 == 0 && decide (off ≤ 0x28)

/-- A command word is well formed when its bits 31:2 are zero (rule R63). -/
def commandWordWellFormed (w : Word) : Bool := w.extractLsb 31 2 == 0

/-- A host action to which the spec can give a meaning in some state: a whole-word access to one
of the eleven offsets, a command word that is not reserved, a word address of `AW` = 32 bits. -/
def Action.wellFormed : Action → Bool
  | .wr off w => offsetWellFormed off && (off != 0 || commandWordWellFormed w)
  | .rd off => offsetWellFormed off
  | .partialAccess _ => false
  | .mw a _ => decide (a < 2 ^ 32)
  | .mr a => decide (a < 2 ^ 32)
  | .wait => true
  | .rst => true

end Sys2Proof
end

