-- ==== Sys2Proof/Decode.lean ====
section
/-!
DEFINITION. The decoder and the encoder of the command word (30_encoding.md rules R63, R64, R71)
and the register offsets (10_state.md rule R14).
-/

namespace Sys2Proof

/-- Why a command word is not decoded (rule R71 (a)). -/
inductive DecodeError where
  /-- One of the words with bits 31:2 not zero. -/
  | reservedCommand
deriving DecidableEq, Repr

/-- Field `ZERO`, bits 31:2 of the command word (rule R63). -/
def fieldZero (w : Word) : BitVec 30 := w.extractLsb 31 2

/-- Field `OP`, bits 1:0 of the command word (rule R63). -/
def fieldOp (w : Word) : BitVec 2 := w.extractLsb 1 0

/-- The opcode map of rule R64 on the two bits of `OP`. -/
def opcodeCommand (op : BitVec 2) : Instr :=
  if op = 0b00#2 then .squash
  else if op = 0b01#2 then .colorrot
  else if op = 0b10#2 then .blur
  else .expand

/-- `DECODE(w)`, total on 32-bit words: one of the four commands, or reserved (rule R64). -/
def decode (w : Word) : Except DecodeError Instr :=
  if fieldZero w = 0 then .ok (opcodeCommand (fieldOp w)) else .error .reservedCommand

/-- The `OP` field of a command (rule R64). -/
def commandOpcode : Instr → BitVec 2
  | .squash => 0b00#2
  | .colorrot => 0b01#2
  | .blur => 0b10#2
  | .expand => 0b11#2

/-- The command word of a command, format C: thirty zero bits, then `OP` (rule R63). -/
def encode (i : Instr) : Word := (0#30) ++ commandOpcode i

/-- The 32-bit command word whose low `nbits` bits are those of `w`, every bit above them zero. -/
def tableWord (nbits w : Nat) : Word := BitVec.ofNat 32 (w % 2 ^ nbits)

/-- The command the decoder reads from a row of the opcode table. -/
def decodeTableWord (nbits w : Nat) : Option Instr :=
  match decode (tableWord nbits w) with
  | .ok i => some i
  | .error _ => none

/-- The byte offset of a register (rule R14). -/
def Reg.offset : Reg → Nat
  | .cmd => 0x00
  | .status => 0x04
  | .srcBase => 0x08
  | .srcWidth => 0x0C
  | .srcHeight => 0x10
  | .dstBase => 0x14
  | .dstWidth => 0x18
  | .dstHeight => 0x1C
  | .xfac => 0x20
  | .yfac => 0x24
  | .blurDist => 0x28

/-- The register at a byte offset; none for a reserved offset (rules R14, R71 (b)). -/
def Reg.ofOffset (off : Nat) : Option Reg :=
  if off = 0x00 then some .cmd
  else if off = 0x04 then some .status
  else if off = 0x08 then some .srcBase
  else if off = 0x0C then some .srcWidth
  else if off = 0x10 then some .srcHeight
  else if off = 0x14 then some .dstBase
  else if off = 0x18 then some .dstWidth
  else if off = 0x1C then some .dstHeight
  else if off = 0x20 then some .xfac
  else if off = 0x24 then some .yfac
  else if off = 0x28 then some .blurDist
  else none

/-- The number of a channel selector (rule R70: 0 red, 1 green, 2 blue, 3 alpha). -/
def ChannelSel.code : ChannelSel → Nat
  | .red => 0
  | .green => 1
  | .blue => 2
  | .alpha => 3

end Sys2Proof
end

