-- ==== Sys2Proof/Machine/State.lean ====
section
/-!
DEFINITION. The state of pixel_averager (10_state.md rules R10 to R32), the reasons a step can
stop (60_exceptions.md rule R141), and the state after reset (rule R32).
-/

namespace Sys2Proof.Machine

open Sys2Proof

/-- Why a step faults: there is no reason. A fault is a trap of the hardware (rule R142), and the
hardware raises no exception, trap or fault (rule R140), so the type has no constructor. -/
inductive Fault where
deriving DecidableEq, Repr

/-- Why a step is refused: the conditions of rule R141, under the spec's names, then the model's
own. -/
inductive Refusal where
  /-- SAFE. An arm of `exec` that has no meaning yet; no arm of this model is such. -/
  | notModelled (mnemonic : String)
  /-- SAFE. A launch attempt whose preconditions do not all hold (rules R66, R141, U1, U2). -/
  | precondition
  /-- SAFE. A command word with bits 31:2 not zero (rules R64, R71 (a), U3). -/
  | reservedCommand
  /-- SAFE. A register access at a reserved offset, or not of a whole word (rule R71 (b), U3). -/
  | reservedOffset
  /-- SAFE. A register write, other than to `STATUS`, while `BUSY = 1` (rules R61, R166, U8). -/
  | writeWhileBusy
  /-- SAFE. A host write into the source or destination region while `BUSY = 1`
  (rules R165, R167, U8). -/
  | hostTouchedBuffer
  /-- SAFE. A pixel step reads a word that nothing has written (rule R41, U9). -/
  | unwrittenSource
  /-- SAFE. `PIXEL_AT` out of bounds (rule R90, U4); no admitted command reaches it. -/
  | pixelAtOutOfBounds
  /-- SAFE. `ROW_OF` or `COL_OF` with width 0 (rules R91, R92, U6); no admitted command reaches it. -/
  | zeroWidth
  /-- SAFE. `ACC_FINAL` with count 0 (rule R96, U7); no admitted command reaches it. -/
  | emptyAccumulator
  /-- SAFE. A `PMEM` access at or past `MEMWORDS`, where no word exists (rules R40, R41): the host's
  own `MW` or `MR`, or a core step in a state no launch can produce. Log entry 6. -/
  | noSuchWord (addr : Nat)
  /-- SAFE. A channel value above 255 (rule R81, U5); no admitted command reaches it. Log entry 17. -/
  | channelOutOfRange
  /-- SAFE. A pixel step with no command in `OPLATCH`; no launch leads to it. Log entry 8. -/
  | noCommandLatched
deriving DecidableEq, Repr

/-- The accumulator `ACC`, the source document's PixelAverager (rule R26). The rule allows the five
fields to be held as unbounded naturals (log entry 7); the invariant bounds them by 40 and 32 bits. -/
structure Acc where
  sumR : Nat
  sumG : Nat
  sumB : Nat
  sumA : Nat
  count : Nat
deriving DecidableEq, Repr

/-- All five fields 0: `ACC` after reset and after `ACC_RESET` (rules R32, R94). -/
def Acc.zero : Acc := { sumR := 0, sumG := 0, sumB := 0, sumA := 0, count := 0 }

/-- The pixel memory: the written words, by strictly rising word address (rule R41). An unlisted
word has no value. The cell is the word: the hardware has no byte view (rule R46, log entry 4). -/
abbrev PMem := List (Nat × Word)

/-- The whole state (rule R10), then `MEMWORDS` and the model's own fields. -/
structure State where
  /-- `SRC_BASE` (rule R17). -/
  srcBase : Word
  /-- `SRC_WIDTH` (rule R18). -/
  srcWidth : Dim
  /-- `SRC_HEIGHT` (rule R19). -/
  srcHeight : Dim
  /-- `DST_BASE` (rule R20). -/
  dstBase : Word
  /-- `DST_WIDTH` (rule R21). -/
  dstWidth : Dim
  /-- `DST_HEIGHT` (rule R22). -/
  dstHeight : Dim
  /-- `XFAC` (rule R23). -/
  xfac : Dim
  /-- `YFAC` (rule R24). -/
  yfac : Dim
  /-- `BLUR_DIST` (rule R25). -/
  blurDist : Dim
  /-- `STATUS.BUSY` (rule R16). -/
  busy : Bool
  /-- `STATUS.DONE` (rule R16). -/
  done : Bool
  /-- `PMEM` (rule R41). -/
  pmem : PMem
  /-- `ACC` (rule R26). -/
  acc : Acc
  /-- `OPLATCH`, the command in flight; meaningless while `BUSY = 0` (rule R28). -/
  oplatch : Option Instr
  /-- `PENDING`, the destination indices not yet written, strictly rising (rule R28). -/
  pending : List Nat
  /-- `MEMWORDS`, an OPEN parameter (rule R4): no step changes it. Log entry 3. -/
  memWords : Nat
  /-- The model's own: the word the last `RD` or `MR` returned (rules R61, R73). Log entry 12. -/
  readData : Word
  /-- The model's own: the host's coming actions (rule R73). Log entries 1 and 15. -/
  script : List Action
  /-- The model's own: the coming free choices while `BUSY = 1` (rule R68). Log entries 1 and 2. -/
  schedule : List Turn
  /-- The model's own: the argument of the free value `Config.powerUpWord`. Log entry 5. -/
  powerUpSeed : Nat
deriving DecidableEq, Repr

/-- The machine right after power-up reset: the values of rule R32; `PMEM` with no word written.
`memWords` and the model's own fields have the values their log entries name. -/
def State.reset : State where
  srcBase := 0
  srcWidth := 0
  srcHeight := 0
  dstBase := 0
  dstWidth := 0
  dstHeight := 0
  xfac := 0
  yfac := 0
  blurDist := 0
  busy := false
  done := false
  pmem := []
  acc := Acc.zero
  oplatch := none
  pending := []
  memWords := Config.resetMemWords
  readData := 0
  script := []
  schedule := []
  powerUpSeed := 0

end Sys2Proof.Machine
end

