-- ==== Sys2Proof/Machine/Ops.lean ====
section
/-!
DEFINITION. The named operations over memory and registers, and the launch, completion and reset
that every command shares (20_memory.md rules R41 to R44; 30_encoding.md rules R61, R62, R67 to
R69; 70_reset_and_hazards.md rules R160, R162). The hardware has no exception and no return from
one (60_exceptions.md rules R140, R146, R147), so there is no such operation here.
-/

namespace Sys2Proof.Machine

open Sys2Proof

/-- The three outcomes with this machine's reasons. -/
abbrev Result (α : Type) := Host.Outcome α Fault Refusal

/-- Go on with the value of a computation that answered one; a refusal stops. -/
def andThen {α β : Type} (r : Result α) (f : α → Result β) : Result β :=
  match r with
  | .next a => f a
  | .fault e => .fault e
  | .refused e => .refused e

/-! ## Pixel memory (rule R41) -/

/-- The word at an address, none where nothing has been written. -/
def PMem.read : PMem → Nat → Option Word
  | [], _ => none
  | (b, w) :: m, a => if a = b then some w else PMem.read m a

/-- The memory with the word at `a` replaced by `v`; the addresses stay strictly rising. -/
def PMem.write : PMem → Nat → Word → PMem
  | [], a, v => [(a, v)]
  | (b, w) :: m, a, v =>
    if a < b then (a, v) :: (b, w) :: m
    else if a = b then (a, v) :: m
    else (b, w) :: PMem.write m a v

/-- The canonical form: addresses strictly rising. An unlisted word has no value, so every listed
word differs from it. -/
abbrev PMem.wf (m : PMem) : Prop := (m.map Prod.fst).Pairwise (· < ·)

/-- `MemRead(a, 4)` of the core (rule R41): the word at `a`; refused where nothing has written it;
refused too where no word exists (log entry 6). -/
def memRead (s : State) (a : Nat) : Result Word :=
  if a < s.memWords then
    match s.pmem.read a with
    | some v => .next v
    | none => .refused .unwrittenSource
  else .refused (.noSuchWord a)

/-- The state with the `PMEM` word at `a` replaced by `v`. -/
def State.putWord (s : State) (a : Nat) (v : Word) : State :=
  { s with pmem := s.pmem.write a v }

/-- `MemWrite(a, 4, v)` (rule R41); refused where no word exists (log entry 6). -/
def memWrite (s : State) (a : Nat) (v : Word) : Result State :=
  if a < s.memWords then .next (s.putWord a v) else .refused (.noSuchWord a)

/-! ## The register block (rules R14 to R25, R61) -/

/-- `STATUS` as read: bit 1 `DONE`, bit 0 `BUSY`, bits 31:2 zero (rule R16). -/
def statusWord (s : State) : Word :=
  (0#30) ++ BitVec.ofBool s.done ++ BitVec.ofBool s.busy

/-- What a read of a register returns (rule R61): `CMD` reads 0; the 16-bit registers read
zero-extended. -/
def getReg (r : Reg) (s : State) : Word :=
  match r with
  | .cmd => 0
  | .status => statusWord s
  | .srcBase => s.srcBase
  | .srcWidth => s.srcWidth.setWidth 32
  | .srcHeight => s.srcHeight.setWidth 32
  | .dstBase => s.dstBase
  | .dstWidth => s.dstWidth.setWidth 32
  | .dstHeight => s.dstHeight.setWidth 32
  | .xfac => s.xfac.setWidth 32
  | .yfac => s.yfac.setWidth 32
  | .blurDist => s.blurDist.setWidth 32

/-- What storing a word in a register does (rule R61): a 16-bit register keeps bits 15:0 and drops
bits 31:16; `STATUS` ignores the write and `CMD` stores nothing. -/
def setReg (r : Reg) (w : Word) (s : State) : State :=
  match r with
  | .cmd => s
  | .status => s
  | .srcBase => { s with srcBase := w }
  | .srcWidth => { s with srcWidth := w.setWidth 16 }
  | .srcHeight => { s with srcHeight := w.setWidth 16 }
  | .dstBase => { s with dstBase := w }
  | .dstWidth => { s with dstWidth := w.setWidth 16 }
  | .dstHeight => { s with dstHeight := w.setWidth 16 }
  | .xfac => { s with xfac := w.setWidth 16 }
  | .yfac => { s with yfac := w.setWidth 16 }
  | .blurDist => { s with blurDist := w.setWidth 16 }

/-- The state with a word returned to the host. -/
def State.returnWord (s : State) (w : Word) : State := { s with readData := w }

/-! ## Launch, completion, reset -/

/-- `LAUNCH(cmd)` (rule R67), `n` being `dw*dh`: nothing else changes. -/
def launch (cmd : Instr) (n : Nat) (s : State) : State :=
  { s with oplatch := some cmd, pending := List.range n, busy := true, done := false }

/-- The launch attempt of a decoded command (rule R62), `ok` being `ADMIT(cmd)` and `n` being
`dw*dh`. The busy test comes first (rule R145). -/
def launchAttempt (cmd : Instr) (ok : Bool) (n : Nat) (s : State) : Result State :=
  if s.busy then .refused .writeWhileBusy
  else if ok then .next (launch cmd n s)
  else .refused .precondition

/-- The completion step (rule R69): nothing else changes. -/
def complete (s : State) : State := { s with busy := false, done := true }

/-- The index of `PENDING` that the choice `n` names, none where `PENDING` is empty. Every index
is named by some `n` (rule R68: which is taken next is not fixed). -/
def pickIndex (pending : List Nat) (n : Nat) : Option Nat := pending[n % pending.length]?

/-- `PENDING <- PENDING \ {k}` (rule R68). -/
def State.dropPending (s : State) (k : Nat) : State :=
  { s with pending := s.pending.filter (fun j => j != k) }

/-- The state with another `ACC`. -/
def State.withAcc (s : State) (acc : Acc) : State := { s with acc := acc }

/-- The reset input (rules R160, R162): the values of rule R32, `PMEM` not touched. `memWords` and
the model's own fields are no hardware state and stay (log entry 14). -/
def applyReset (s : State) : State :=
  { s with
    srcBase := 0, srcWidth := 0, srcHeight := 0
    dstBase := 0, dstWidth := 0, dstHeight := 0
    xfac := 0, yfac := 0, blurDist := 0
    busy := false, done := false
    acc := Acc.zero, oplatch := none, pending := [] }

end Sys2Proof.Machine
end

