-- ==== Sys2Proof/Machine/Operands.lean ====
section
/-!
DEFINITION. Operand assembly (30_encoding.md rule R65), image descriptors and regions (20_memory.md
rules R42 to R44), and the named preconditions of rule R66. All arithmetic is exact (rule R6).
-/

namespace Sys2Proof.Machine

open Sys2Proof

/-- `sb = x[SRC_BASE]` (rule R65). -/
def State.sb (s : State) : Nat := s.srcBase.toNat
/-- `sw = x[SRC_WIDTH]` (rule R65). -/
def State.sw (s : State) : Nat := s.srcWidth.toNat
/-- `sh = x[SRC_HEIGHT]` (rule R65). -/
def State.sh (s : State) : Nat := s.srcHeight.toNat
/-- `db = x[DST_BASE]` (rule R65). -/
def State.db (s : State) : Nat := s.dstBase.toNat
/-- `dw = x[DST_WIDTH]` (rule R65). -/
def State.dw (s : State) : Nat := s.dstWidth.toNat
/-- `dh = x[DST_HEIGHT]` (rule R65). -/
def State.dh (s : State) : Nat := s.dstHeight.toNat
/-- `xf = x[XFAC]` (rule R65). -/
def State.xf (s : State) : Nat := s.xfac.toNat
/-- `yf = x[YFAC]` (rule R65). -/
def State.yf (s : State) : Nat := s.yfac.toNat
/-- `d = x[BLUR_DIST]` (rule R65). -/
def State.dist (s : State) : Nat := s.blurDist.toNat

/-- An image descriptor `(base, width, height)` (rules R12, R42). -/
structure Image where
  base : Nat
  width : Nat
  height : Nat
deriving DecidableEq, Repr

/-- The source image `(sb, sw, sh)` (rule R65). -/
def srcImage (s : State) : Image := { base := s.sb, width := s.sw, height := s.sh }

/-- The destination image `(db, dw, dh)` (rule R65). -/
def dstImage (s : State) : Image := { base := s.db, width := s.dw, height := s.dh }

/-- `addr(base, width, row, col) = base + row*width + col` (rule R42). -/
def Image.addr (img : Image) (row col : Nat) : Nat := img.base + row * img.width + col

/-- The first address past the image's region (rule R43). -/
def Image.limit (img : Image) : Nat := img.base + img.width * img.height

/-- Membership in `REGION(base, width, height)` (rule R43). -/
def Image.inRegion (img : Image) (a : Nat) : Bool := decide (img.base ≤ a) && decide (a < img.limit)

/-- `P-DIM` (rule R66): every dimension is at least 1. -/
def pDim (s : State) : Bool :=
  decide (1 ≤ s.sw) && decide (1 ≤ s.sh) && decide (1 ≤ s.dw) && decide (1 ≤ s.dh)

/-- `P-FIT` (rules R43, R66): both images lie inside `PMEM`. -/
def pFit (s : State) : Bool :=
  decide (s.sb + s.sw * s.sh ≤ s.memWords) && decide (s.db + s.dw * s.dh ≤ s.memWords)

/-- `P-DISJ` (rules R44, R66): the two regions have no address in common. -/
def pDisj (s : State) : Bool :=
  decide (s.sb + s.sw * s.sh ≤ s.db) || decide (s.db + s.dw * s.dh ≤ s.sb)

/-- `P-SQ-FAC` (rules R66, R100). -/
def pSqFac (s : State) : Bool := decide (1 ≤ s.xf) && decide (1 ≤ s.yf)

/-- `P-SQ-BND` (rules R66, R100). -/
def pSqBnd (s : State) : Bool := decide (s.dw * s.xf ≤ s.sw) && decide (s.dh * s.yf ≤ s.sh)

/-- `P-SAME` (rules R66, R105, R110). -/
def pSame (s : State) : Bool := decide (s.dw = s.sw) && decide (s.dh = s.sh)

/-- `P-EXP` (rules R66, R120). -/
def pExp (s : State) : Bool := decide (s.dw = 2 * s.sw) && decide (s.dh = 2 * s.sh)

/-- The preconditions that all four commands share (rule R66). -/
def pCommon (s : State) : Bool := pDim s && pFit s && pDisj s

end Sys2Proof.Machine
end

