-- ==== Sys2Proof/Machine/Flags.lean ====
section
/-!
DEFINITION. The flags: the level outputs that mirror `STATUS` (10_state.md rules R30, R33), and
the parities and edge flags of `EXPAND`, which are values and no state (46_upsample.md rule R121).
No operation sets a condition code (rule R30).
-/

namespace Sys2Proof.Machine

open Sys2Proof

/-- The level output `busy`, always `STATUS.BUSY` (rule R33). -/
def busyOut (s : State) : Bool := s.busy

/-- The level output `done`, always `STATUS.DONE` (rule R33). -/
def doneOut (s : State) : Bool := s.done

/-- `row_odd` or `col_odd`: bit 0 of a coordinate (rule R121). -/
def isOdd (x : Nat) : Bool := x % 2 == 1

/-- `right_edge = (c + 1 ≥ sw)` (rule R121). -/
def rightEdge (s : State) (c : Nat) : Bool := decide (s.sw ≤ c + 1)

/-- `bottom_edge = (r + 1 ≥ sh)` (rule R121). -/
def bottomEdge (s : State) (r : Nat) : Bool := decide (s.sh ≤ r + 1)

end Sys2Proof.Machine
end

