-- ==== Sys2Proof/Machine/PixelCodec.lean ====
section
/-!
DEFINITION. Unit pixel_averager, the Pixel Codec: `DECODE_CH`, `ENCODE_PX`, `AVG2`, `AVG4`
(41_pixel_codec.md rules R80 to R85).
-/

namespace Sys2Proof.Machine

open Sys2Proof

/-- `DECODE_CH(p, which) = (p >> (24 - 8*which)) & 0xFF`, as 8 bits (rule R80). -/
def decodeCh (p : Word) (which : ChannelSel) : Channel :=
  ((p >>> (24 - 8 * which.code)) &&& 0xFF#32).setWidth 8

/-- `R(p)` (rule R80). -/
def redOf (p : Word) : Channel := decodeCh p .red
/-- `G(p)` (rule R80). -/
def greenOf (p : Word) : Channel := decodeCh p .green
/-- `B(p)` (rule R80). -/
def blueOf (p : Word) : Channel := decodeCh p .blue
/-- `A(p)` (rule R80). -/
def alphaOf (p : Word) : Channel := decodeCh p .alpha

/-- `ENCODE_PX(r, g, b, a) = {r, g, b, a}` (rule R81). The inputs are 8-bit (D19). -/
def encodePx (r g b a : Channel) : Word := r ++ g ++ b ++ a

/-- The truncated mean of two channels: the sum is exact, the quotient is at most 255
(rules R82, R84). -/
def mean2 (x y : Channel) : Channel := BitVec.ofNat 8 ((x.toNat + y.toNat) / 2)

/-- The truncated mean of four channels: one division of the whole sum (rules R83, R84). -/
def mean4 (x y z t : Channel) : Channel :=
  BitVec.ofNat 8 ((x.toNat + y.toNat + z.toNat + t.toNat) / 4)

/-- `AVG2(p1, p2)` (rule R82). -/
def avg2 (p1 p2 : Word) : Word :=
  encodePx (mean2 (redOf p1) (redOf p2)) (mean2 (greenOf p1) (greenOf p2))
    (mean2 (blueOf p1) (blueOf p2)) (mean2 (alphaOf p1) (alphaOf p2))

/-- `AVG4(p1, p2, p3, p4)` (rule R83). -/
def avg4 (p1 p2 p3 p4 : Word) : Word :=
  encodePx (mean4 (redOf p1) (redOf p2) (redOf p3) (redOf p4))
    (mean4 (greenOf p1) (greenOf p2) (greenOf p3) (greenOf p4))
    (mean4 (blueOf p1) (blueOf p2) (blueOf p3) (blueOf p4))
    (mean4 (alphaOf p1) (alphaOf p2) (alphaOf p3) (alphaOf p4))

/-- A number as a channel; a value above 255 is refused, never masked or saturated (rule R81,
93_implementation_defined.md U5; log entry 17). -/
def toChannel (n : Nat) : Result Channel :=
  if n < 256 then .next (BitVec.ofNat 8 n) else .refused .channelOutOfRange

end Sys2Proof.Machine
end

