-- ==== Sys2Proof/Machine/ImageAccessor.lean ====
section
/-!
DEFINITION. Unit image_accessor: `PIXEL_AT`, `ROW_OF`, `COL_OF`, `INB`, `ACC_RESET`, `ACC_ACCUM`,
`ACC_FINAL` (42_image_accessor.md rules R90 to R96).
-/

namespace Sys2Proof.Machine

open Sys2Proof

/-- `INB(img, row, col)` on integers: a negative coordinate is out of bounds (rule R93). -/
def inb (img : Image) (row col : Int) : Bool :=
  decide (0 ≤ row) && decide (row < (img.height : Int)) &&
    decide (0 ≤ col) && decide (col < (img.width : Int))

/-- `PIXEL_AT(img, row, col)` (rule R90): refused out of bounds, never an address wrapped into a
neighbouring row (U4). -/
def pixelAt (s : State) (img : Image) (row col : Int) : Result Word :=
  if inb img row col then memRead s (img.addr row.toNat col.toNat)
  else .refused .pixelAtOutOfBounds

/-- `SRC(row, col) = PIXEL_AT((sb, sw, sh), row, col)` (rules R65, R90). -/
def src (s : State) (row col : Nat) : Result Word := pixelAt s (srcImage s) row col

/-- `ROW_OF(index, width) = index div width` (rule R91). -/
def rowOf (index width : Nat) : Result Nat :=
  if width = 0 then .refused .zeroWidth else .next (index / width)

/-- `COL_OF(index, width) = index mod width` (rule R92). -/
def colOf (index width : Nat) : Result Nat :=
  if width = 0 then .refused .zeroWidth else .next (index % width)

/-- `ACC_RESET` (rule R94). -/
def accReset (_acc : Acc) : Acc := Acc.zero

/-- `ACC` after one contributing pixel (rule R95): all four channels are summed. -/
def Acc.addPixel (acc : Acc) (p : Word) : Acc :=
  { sumR := acc.sumR + (redOf p).toNat
    sumG := acc.sumG + (greenOf p).toNat
    sumB := acc.sumB + (blueOf p).toNat
    sumA := acc.sumA + (alphaOf p).toNat
    count := acc.count + 1 }

/-- `ACC_ACCUM(img, row, col)` (rule R95): a coordinate out of bounds is skipped, not counted, and
`PMEM` is not read. -/
def accAccum (s : State) (img : Image) (row col : Int) (acc : Acc) : Result Acc :=
  if inb img row col then
    andThen (pixelAt s img row col) fun p => .next (acc.addPixel p)
  else .next acc

/-- `ACC_ACCUM` for each coordinate pair of a list, in its order. -/
def accumAll (s : State) (img : Image) : List (Int × Int) → Acc → Result Acc
  | [], acc => .next acc
  | (rr, cc) :: rest, acc =>
    andThen (accAccum s img rr cc acc) fun acc' => accumAll s img rest acc'

/-- `ACC_FINAL` (rule R96): the truncated mean of each channel; refused with count 0 (U7). -/
def accFinal (acc : Acc) : Result Word :=
  if acc.count = 0 then .refused .emptyAccumulator
  else
    andThen (toChannel (acc.sumR / acc.count)) fun r =>
    andThen (toChannel (acc.sumG / acc.count)) fun g =>
    andThen (toChannel (acc.sumB / acc.count)) fun b =>
    andThen (toChannel (acc.sumA / acc.count)) fun a =>
    .next (encodePx r g b a)

end Sys2Proof.Machine
end

