-- ==== Sys2Proof/Machine/Blur.lean ====
section
/-!
DEFINITION. Unit box_blur_filter: `BLUR` (45_box_blur.md rules R110 to R116).
-/

namespace Sys2Proof.Machine

open Sys2Proof

/-- `ADMIT(BLUR)` (rules R66, R110): there is no precondition on the distance. -/
def admitsBlur (s : State) : Bool := pCommon s && pSame s

/-- `WIN(row, col)`: all `(2d+1)^2` coordinate pairs of the window, computed in the integers
(rule R111). -/
def window (d row col : Nat) : List (Int × Int) :=
  (List.range (2 * d + 1)).flatMap fun i : Nat =>
    (List.range (2 * d + 1)).map fun j : Nat =>
      ((row : Int) - (d : Int) + (i : Int), (col : Int) - (d : Int) + (j : Int))

/-- The window cut to the image, the rectangle `r0 .. r1` by `c0 .. c1` of rule R113. Natural
subtraction is the `max(0, ·)` of the rule. -/
def clampedWindow (img : Image) (d row col : Nat) : List (Int × Int) :=
  let r0 := row - d
  let r1 := min (img.height - 1) (row + d)
  let c0 := col - d
  let c1 := min (img.width - 1) (col + d)
  (List.range (r1 - r0 + 1)).flatMap fun i =>
    (List.range (c1 - c0 + 1)).map fun j => (((r0 + i : Nat) : Int), ((c0 + j : Nat) : Int))

/-- `OUT_BLUR` over a given list of window positions, with the `ACC` it leaves (rules R112, R114):
red, green and blue from `ACC_FINAL`, alpha from the source pixel at the output position. -/
def blurOver (s : State) (positions : List (Int × Int)) (row col : Nat) : Result (Word × Acc) :=
  andThen (accumAll s (srcImage s) positions (accReset s.acc)) fun acc =>
  andThen (accFinal acc) fun q =>
  andThen (src s row col) fun p =>
  .next (encodePx (redOf q) (greenOf q) (blueOf q) (alphaOf p), acc)

/-- `OUT_BLUR(row, col)` of rule R112, visiting only the clamped rectangle: rule R116 (a) lets the
hardware scan either, with the same result (log entry 10). -/
def outBlur (s : State) (row col : Nat) : Result (Word × Acc) :=
  blurOver s (clampedWindow (srcImage s) s.dist row col) row col

/-- `OUT_BLUR(row, col)` word for word as rule R112 has it, visiting all of `WIN(row, col)`. -/
def outBlurFullWindow (s : State) (row col : Nat) : Result (Word × Acc) :=
  blurOver s (window s.dist row col) row col

/-- The command word `BLUR`: its launch attempt (rules R62, R66, R67, R110). -/
def execBlur (s : State) : Result State :=
  launchAttempt .blur (admitsBlur s) (s.dw * s.dh) s

end Sys2Proof.Machine
end

