-- ==== Sys2Proof/Machine/ColorRot.lean ====
section
/-!
DEFINITION. Unit channel_rotator: `COLORROT` (44_channel_rotation.md rules R105 to R107).
-/

namespace Sys2Proof.Machine

open Sys2Proof

/-- `ADMIT(COLORROT)` (rules R66, R105). -/
def admitsColorrot (s : State) : Bool := pCommon s && pSame s

/-- `ROT(p) = PX(B(p), R(p), G(p), A(p))` (rule R106). -/
def rot (p : Word) : Word := encodePx (blueOf p) (redOf p) (greenOf p) (alphaOf p)

/-- `OUT_COLORROT(row, col) = ROT(SRC(row, col))` (rule R106). -/
def outColorrot (s : State) (row col : Nat) : Result Word :=
  andThen (src s row col) fun p => .next (rot p)

/-- The command word `COLORROT`: its launch attempt (rules R62, R66, R67, R105). -/
def execColorrot (s : State) : Result State :=
  launchAttempt .colorrot (admitsColorrot s) (s.dw * s.dh) s

end Sys2Proof.Machine
end

