-- ==== Sys2Proof/Machine/Expand.lean ====
section
/-!
DEFINITION. Unit upsample_interpolator: `EXPAND` (46_upsample.md rules R120 to R127).
-/

namespace Sys2Proof.Machine

open Sys2Proof

/-- `ADMIT(EXPAND)` (rules R66, R120). -/
def admitsExpand (s : State) : Bool := pCommon s && pExp s

/-- `AVG2` of two source pixels. -/
def srcAvg2 (s : State) (r1 c1 r2 c2 : Nat) : Result Word :=
  andThen (src s r1 c1) fun p1 =>
  andThen (src s r2 c2) fun p2 =>
  .next (avg2 p1 p2)

/-- `AVG4` of the 2 by 2 block whose top-left is `(r, c)` (rule R127 (h)). -/
def srcAvg4 (s : State) (r c : Nat) : Result Word :=
  andThen (src s r c) fun p1 =>
  andThen (src s r (c + 1)) fun p2 =>
  andThen (src s (r + 1) c) fun p3 =>
  andThen (src s (r + 1) (c + 1)) fun p4 =>
  .next (avg4 p1 p2 p3 p4)

/-- `OUT_EXPAND(row, col)`, the nine cases of rule R126 (rules R121 to R125). Only the source
pixels a case names are read. -/
def outExpand (s : State) (row col : Nat) : Result Word :=
  let r := row / 2
  let c := col / 2
  match isOdd row, isOdd col, rightEdge s c, bottomEdge s r with
  | false, false, _, _ => src s r c
  | false, true, true, _ => src s r c
  | false, true, false, _ => srcAvg2 s r c r (c + 1)
  | true, false, _, true => src s r c
  | true, false, _, false => srcAvg2 s r c (r + 1) c
  | true, true, false, false => srcAvg4 s r c
  | true, true, true, false => srcAvg2 s r c (r + 1) c
  | true, true, false, true => srcAvg2 s r c r (c + 1)
  | true, true, true, true => src s r c

/-- The command word `EXPAND`: its launch attempt (rules R62, R66, R67, R120). -/
def execExpand (s : State) : Result State :=
  launchAttempt .expand (admitsExpand s) (s.dw * s.dh) s

end Sys2Proof.Machine
end

