-- ==== Sys2Proof/Machine/Squash.lean ====
section
/-!
DEFINITION. Unit downsample_engine: `SQUASH` (43_downsample.md rules R100 to R102).
-/

namespace Sys2Proof.Machine

open Sys2Proof

/-- `ADMIT(SQUASH)` (rules R66, R100). -/
def admitsSquash (s : State) : Bool := pCommon s && pSqFac s && pSqBnd s

/-- `OUT_SQUASH(row, col) = SRC(row*yf, col*xf)` (rule R101). -/
def outSquash (s : State) (row col : Nat) : Result Word := src s (row * s.yf) (col * s.xf)

/-- The command word `SQUASH`: its launch attempt (rules R62, R66, R67, R100). -/
def execSquash (s : State) : Result State :=
  launchAttempt .squash (admitsSquash s) (s.dw * s.dh) s

end Sys2Proof.Machine
end

