-- ==== Sys2Proof/Machine/Dispatch.lean ====
section
/-!
DEFINITION. One arm per command: what the command word does when the host writes it to `CMD`
(30_encoding.md rules R62, R64).
-/

namespace Sys2Proof.Machine

open Sys2Proof

def exec (i : Instr) (s : State) : Host.Outcome State Fault Refusal :=
  match i with
  | .squash => Sys2Proof.Machine.execSquash s
  | .colorrot => Sys2Proof.Machine.execColorrot s
  | .blur => Sys2Proof.Machine.execBlur s
  | .expand => Sys2Proof.Machine.execExpand s

end Sys2Proof.Machine
end

