-- ==== Sys2Proof/Machine/CoreAgent.lean ====
section
/-!
DEFINITION. The core agent: the per-pixel function of the latched command, the pixel step and the
completion step (30_encoding.md rules R68, R69), and the whole command as one function (rule R75).
-/

namespace Sys2Proof.Machine

open Sys2Proof

/-- `ADMIT(cmd)` (rule R66). -/
def admits (cmd : Instr) (s : State) : Bool :=
  match cmd with
  | .squash => admitsSquash s
  | .colorrot => admitsColorrot s
  | .blur => admitsBlur s
  | .expand => admitsExpand s

/-- `OUT_cmd(row, col)` (rule R68), with the `ACC` it leaves: only `BLUR` uses `ACC` (rule R26). -/
def outPixel (cmd : Instr) (s : State) (row col : Nat) : Result (Word × Acc) :=
  match cmd with
  | .squash => andThen (outSquash s row col) fun v => .next (v, s.acc)
  | .colorrot => andThen (outColorrot s row col) fun v => .next (v, s.acc)
  | .blur => outBlur s row col
  | .expand => andThen (outExpand s row col) fun v => .next (v, s.acc)

/-- `OUT_cmd` at the linear index `k` of the destination (rules R68, R91, R92). -/
def outIndex (cmd : Instr) (s : State) (k : Nat) : Result (Word × Acc) :=
  andThen (rowOf k s.dw) fun row =>
  andThen (colOf k s.dw) fun col =>
  outPixel cmd s row col

/-- The pixel step for the index `k` (rule R68): one destination word is written, at `db + k`. -/
def pixelStep (k : Nat) (s : State) : Result State :=
  match s.oplatch with
  | none => .refused .noCommandLatched
  | some cmd =>
    andThen (outIndex cmd s k) fun out =>
    andThen (memWrite (s.withAcc out.2) (s.db + k) out.1) fun s' =>
    .next (s'.dropPending k)

/-- A step of the busy core: a pixel step for the index the choice `n` names, or the completion
step when `PENDING` is empty (rules R68, R69). -/
def coreStep (n : Nat) (s : State) : Result State :=
  match pickIndex s.pending n with
  | some k => pixelStep k s
  | none => .next (complete s)

/-- The words of the destination image from index `k` on, `n` of them, each `OUT_cmd` evaluated
on `s` (rule R75), put into the memory `m`. -/
def wholeCommandFrom (cmd : Instr) (s : State) : Nat → Nat → PMem → Result PMem
  | 0, _, m => .next m
  | n + 1, k, m =>
    andThen (outIndex cmd s k) fun out =>
    wholeCommandFrom cmd s n (k + 1) (m.write (s.db + k) out.1)

/-- Rule R75: the `PMEM` at completion as one function of the state at launch. No step uses it;
statements compare the pixel steps with it. -/
def wholeCommand (cmd : Instr) (s : State) : Result PMem :=
  wholeCommandFrom cmd s (s.dw * s.dh) 0 s.pmem

end Sys2Proof.Machine
end

