-- ==== Sys2Proof/Machine/HostAgent.lean ====
section
/-!
DEFINITION. The host agent: register transactions (30_encoding.md rules R61, R62, R71), the host's
own `PMEM` accesses (rule R73; 20_memory.md rule R53), `WAIT` (rule R74) and the reset input
(70_reset_and_hazards.md rules R160, R162).
-/

namespace Sys2Proof.Machine

open Sys2Proof

/-- The launch attempt with a command word (rule R62): decode, then the command's meaning. -/
def commandWrite (w : Word) (s : State) : Result State :=
  match decode w with
  | .ok i => exec i s
  | .error .reservedCommand => .refused .reservedCommand

/-- `WR(off, w)` (rule R61). A write to `STATUS` does nothing, busy or not; while `BUSY = 1` every
other write is refused, whatever its offset or word (rules R61, R145; log entry 11). -/
def regWrite (off : Nat) (w : Word) (s : State) : Result State :=
  if off = Reg.offset .status then .next s
  else if s.busy then .refused .writeWhileBusy
  else
    match Reg.ofOffset off with
    | none => .refused .reservedOffset
    | some .cmd => commandWrite w s
    | some r => .next (setReg r w s)

/-- `RD(off)` (rule R61), always allowed; the word goes to the host. -/
def regRead (off : Nat) (s : State) : Result State :=
  match Reg.ofOffset off with
  | none => .refused .reservedOffset
  | some r => .next (s.returnWord (getReg r s))

/-- A host write to this address is forbidden now: a command is in flight and the word belongs to
its source or destination region (rules R53, R165, R167). -/
def inFlightRegion (s : State) (a : Nat) : Bool :=
  s.busy && ((srcImage s).inRegion a || (dstImage s).inRegion a)

/-- `MW addr, value` (rules R53, R73). -/
def hostMemWrite (a : Nat) (v : Word) (s : State) : Result State :=
  if inFlightRegion s a then .refused .hostTouchedBuffer else memWrite s a v

/-- What the host reads at a word that exists: its value, or the free power-up content where
nothing has written it (log entry 5). -/
def hostWord (s : State) (a : Nat) : Word :=
  match s.pmem.read a with
  | some v => v
  | none => Config.powerUpWord s.powerUpSeed a

/-- `MR addr` (rules R53, R73): allowed at any time; refused where no word exists (log entry 6). -/
def hostMemRead (a : Nat) (s : State) : Result State :=
  if a < s.memWords then .next (s.returnWord (hostWord s a)) else .refused (.noSuchWord a)

/-- One `RD STATUS` of `WAIT`; the statement stays at the head of the script until the word read
has bit 1 set (rule R74). -/
def waitStep (s : State) : State :=
  let s' := s.returnWord (statusWord s)
  if (statusWord s).getLsbD 1 then s' else { s' with script := .wait :: s'.script }

/-- The effect of one action of the outside world, already taken off the script. -/
def doAction (act : Action) (s : State) : Result State :=
  match act with
  | .wr off w => regWrite off w s
  | .rd off => regRead off s
  | .partialAccess _ => .refused .reservedOffset
  | .mw a v => hostMemWrite a v s
  | .mr a => hostMemRead a s
  | .wait => .next (waitStep s)
  | .rst => .next (applyReset s)

/-- The host's next action; with none left the state stays as it is (rules R149, R161). -/
def hostStep (s : State) : Result State :=
  match s.script with
  | [] => .next s
  | act :: rest => doAction act { s with script := rest }

/-- Which agent moves, and the move (rules R50, R53, R68). An idle core takes no step, so the host
moves. While `BUSY = 1` the schedule chooses; with no choice left the core moves and takes the
first index (log entries 1 and 2). -/
def agentStep (s : State) : Result State :=
  if s.busy then
    match s.schedule with
    | [] => coreStep 0 s
    | .core n :: rest => coreStep n { s with schedule := rest }
    | .host :: rest => hostStep { s with schedule := rest }
  else hostStep s

end Sys2Proof.Machine
end

