-- ==== Sys2Proof/Machine/Script.lean ====
section
/-!
DEFINITION. The statements and pseudo-instructions of the host script as action lists
(30_encoding.md rules R73, R74).
-/

namespace Sys2Proof.Machine

open Sys2Proof

/-- `WR <REG>, <value>` (rule R73). -/
def scriptWr (r : Reg) (v : Word) : Action := .wr r.offset v

/-- `RD <REG>` (rule R73). -/
def scriptRd (r : Reg) : Action := .rd r.offset

/-- `SQUASH`, `COLORROT`, `BLUR` or `EXPAND` as a statement: the write of its command word
(rule R73). -/
def scriptCommand (i : Instr) : Action := .wr (Reg.offset .cmd) (encode i)

/-- `SETSRC <base>, <width>, <height>` (rule R74). -/
def scriptSetSrc (base width height : Word) : List Action :=
  [scriptWr .srcBase base, scriptWr .srcWidth width, scriptWr .srcHeight height]

/-- `SETDST <base>, <width>, <height>` (rule R74). -/
def scriptSetDst (base width height : Word) : List Action :=
  [scriptWr .dstBase base, scriptWr .dstWidth width, scriptWr .dstHeight height]

/-- `CALL_SQUASH <xfac>, <yfac>` (rule R74). -/
def scriptCallSquash (xfac yfac : Word) : List Action :=
  [scriptWr .xfac xfac, scriptWr .yfac yfac, scriptCommand .squash, .wait]

/-- `CALL_COLORROT` (rule R74). -/
def scriptCallColorrot : List Action := [scriptCommand .colorrot, .wait]

/-- `CALL_BLUR <blur_dist>` (rule R74). -/
def scriptCallBlur (dist : Word) : List Action :=
  [scriptWr .blurDist dist, scriptCommand .blur, .wait]

/-- `CALL_EXPAND` (rule R74). -/
def scriptCallExpand : List Action := [scriptCommand .expand, .wait]

/-- `MWS <addr>, <v0>, <v1>, ...` (rule R74). -/
def scriptMws : Nat → List Word → List Action
  | _, [] => []
  | a, v :: vs => .mw a v :: scriptMws (a + 1) vs

end Sys2Proof.Machine
end

