-- ==== Sys2Proof/Machine/Step.lean ====
section
/-!
DEFINITION. One step of the machine, and the placing of a command word where the next step takes
it (30_encoding.md rules R61, R62, R68, R69).
-/

namespace Sys2Proof.Machine

open Sys2Proof

/-- One step: an action of the host, a pixel step or the completion step. -/
def step (s : State) : Host.Outcome State Fault Refusal := agentStep s

/-- The state whose very next step is the host's write of this command word to `CMD`: the write is
put at the head of the script and, while `BUSY = 1`, the turn is given to the host (log entry 15). -/
def State.withFetchWord (s : State) (nbits w : Nat) : State :=
  { s with
    script := .wr (Reg.offset .cmd) (tableWord nbits w) :: s.script
    schedule := if s.busy then .host :: s.schedule else s.schedule }

end Sys2Proof.Machine
end

