-- ==== Sys2Proof/Safety.lean ====
section
/-!
DEFINITION. What counts as a legal state and as a command in flight, in the terms the statements
use (10_state.md rules R16, R26, R28; 20_memory.md rules R41, R53; 30_encoding.md rules R66 to R69).
-/

namespace Sys2Proof.Machine

open Sys2Proof

/-- The bounds of rule R26: the count fits 32 bits and each sum is at most 255 times the count,
so that each sum fits 40 bits. -/
structure Acc.Bounded (acc : Acc) : Prop where
  count : acc.count < 2 ^ 32
  red : acc.sumR ≤ 255 * acc.count
  green : acc.sumG ≤ 255 * acc.count
  blue : acc.sumB ≤ 255 * acc.count
  alpha : acc.sumA ≤ 255 * acc.count

/-- A legal state: what reset establishes and every step keeps. -/
structure Legal (s : State) : Prop where
  /-- `1 ≤ MEMWORDS` (rule R4). -/
  memWords_pos : 1 ≤ s.memWords
  /-- `MEMWORDS ≤ 2^AW` (rule R4). -/
  memWords_le : s.memWords ≤ 2 ^ 32
  /-- `PMEM` is in its canonical form. -/
  pmem_wf : s.pmem.wf
  /-- Only words that exist are written (rule R41). -/
  pmem_lt : ∀ c ∈ s.pmem, c.1 < s.memWords
  /-- `BUSY` and `DONE` are never both 1 (rule R16). -/
  not_busy_done : ¬ (s.busy = true ∧ s.done = true)
  /-- `PENDING` is empty whenever `BUSY = 0` (rule R28). -/
  idle_pending : s.busy = false → s.pending = []
  /-- While `BUSY = 1` a command is latched and its preconditions hold (rules R28, R62, R166). -/
  busy_admitted : s.busy = true → ∃ cmd, s.oplatch = some cmd ∧ admits cmd s = true
  /-- `PENDING` is a set, listed in rising order. -/
  pending_sorted : s.pending.Pairwise (· < ·)
  /-- `PENDING` holds destination pixel indices (rule R28). -/
  pending_lt : ∀ k ∈ s.pending, k < s.dw * s.dh
  /-- `ACC` stays inside its fields (rule R26). -/
  acc_bounded : s.acc.Bounded

/-- Every word of the source region has been written (rule R163 (1)). -/
def SourceWritten (s : State) : Prop :=
  ∀ a, s.sb ≤ a → a < s.sb + s.sw * s.sh → ∃ p, s.pmem.read a = some p

/-- The preconditions shared by all commands, `P-DIM`, `P-FIT` and `P-DISJ` of rule R66, in plain
arithmetic. -/
def CommonPreconditions (s : State) : Prop :=
  1 ≤ s.sw ∧ 1 ≤ s.sh ∧ 1 ≤ s.dw ∧ 1 ≤ s.dh ∧
  s.sb + s.sw * s.sh ≤ s.memWords ∧ s.db + s.dw * s.dh ≤ s.memWords ∧
  (s.sb + s.sw * s.sh ≤ s.db ∨ s.db + s.dw * s.dh ≤ s.sb)

/-- The preconditions of a command, all of them (rules R66, R100, R105, R110, R120), in plain
arithmetic. -/
def Preconditions (cmd : Instr) (s : State) : Prop :=
  CommonPreconditions s ∧
  match cmd with
  | .squash => 1 ≤ s.xf ∧ 1 ≤ s.yf ∧ s.dw * s.xf ≤ s.sw ∧ s.dh * s.yf ≤ s.sh
  | .colorrot => s.dw = s.sw ∧ s.dh = s.sh
  | .blur => s.dw = s.sw ∧ s.dh = s.sh
  | .expand => s.dw = 2 * s.sw ∧ s.dh = 2 * s.sh

/-- The source word at `(row, col)`, the `SRC(row, col)` of rule R65, for statements in which the
source is written; 0 elsewhere. -/
def sourceWord (s : State) (row col : Nat) : Word :=
  (s.pmem.read (s.sb + row * s.sw + col)).getD 0

/-- The set `S` of rule R112: the positions of the image whose row and column are within the blur
distance of the output position. -/
def blurSet (s : State) (row col : Nat) : List (Nat × Nat) :=
  (List.range s.sh ×ˢ List.range s.sw).filter fun rc =>
    decide (row ≤ rc.1 + s.dist ∧ rc.1 ≤ row + s.dist ∧
      col ≤ rc.2 + s.dist ∧ rc.2 ≤ col + s.dist)

/-- The truncated mean of one channel over `S` (rule R112). -/
def blurMean (s : State) (row col : Nat) (which : ChannelSel) : Nat :=
  ((blurSet s row col).map fun rc => (decodeCh (sourceWord s rc.1 rc.2) which).toNat).sum /
    (blurSet s row col).length

/-- A word is the blurred pixel at `(row, col)`: means of red, green and blue, the source's own
alpha (rules R112, R114). -/
def IsBlurred (s : State) (row col : Nat) (v : Word) : Prop :=
  (redOf v).toNat = blurMean s row col .red ∧
  (greenOf v).toNat = blurMean s row col .green ∧
  (blueOf v).toNat = blurMean s row col .blue ∧
  alphaOf v = alphaOf (sourceWord s row col)

/-- The table of rule R126, row by row. -/
def expandWord (s : State) (row col : Nat) : Word :=
  let r := row / 2
  let c := col / 2
  let right := s.sw ≤ c + 1
  let bottom := s.sh ≤ r + 1
  if row % 2 = 0 then
    if col % 2 = 0 then sourceWord s r c
    else if right then sourceWord s r c
    else avg2 (sourceWord s r c) (sourceWord s r (c + 1))
  else if col % 2 = 0 then
    if bottom then sourceWord s r c
    else avg2 (sourceWord s r c) (sourceWord s (r + 1) c)
  else if right then
    if bottom then sourceWord s r c
    else avg2 (sourceWord s r c) (sourceWord s (r + 1) c)
  else if bottom then avg2 (sourceWord s r c) (sourceWord s r (c + 1))
  else avg4 (sourceWord s r c) (sourceWord s r (c + 1)) (sourceWord s (r + 1) c)
    (sourceWord s (r + 1) (c + 1))

/-- The register map of rule R14, offset by offset. -/
def registerMap : List (Nat × Reg) :=
  [(0x00, .cmd), (0x04, .status), (0x08, .srcBase), (0x0C, .srcWidth), (0x10, .srcHeight),
    (0x14, .dstBase), (0x18, .dstWidth), (0x1C, .dstHeight), (0x20, .xfac), (0x24, .yfac),
    (0x28, .blurDist)]

/-- The source positions that the output pixel `(row, col)` of a command uses (rules R101, R106,
R112, and the table of rule R126). -/
def sourceReads (cmd : Instr) (s : State) (row col : Nat) : List (Nat × Nat) :=
  match cmd with
  | .squash => [(row * s.yf, col * s.xf)]
  | .colorrot => [(row, col)]
  | .blur => blurSet s row col
  | .expand =>
    let r := row / 2
    let c := col / 2
    let across := col % 2 = 1 ∧ c + 1 < s.sw
    let down := row % 2 = 1 ∧ r + 1 < s.sh
    if across then
      if down then [(r, c), (r, c + 1), (r + 1, c), (r + 1, c + 1)] else [(r, c), (r, c + 1)]
    else if down then [(r, c), (r + 1, c)]
    else [(r, c)]

/-- Every source word that the output pixel of index `k` uses has been written (rule R41). -/
def ReadsWritten (cmd : Instr) (s : State) (k : Nat) : Prop :=
  ∀ rc ∈ sourceReads cmd s (k / s.dw) (k % s.dw),
    ∃ p, s.pmem.read (s.sb + rc.1 * s.sw + rc.2) = some p

/-- The next step is the host's action `act` (log entries 1 and 2 say who moves). -/
def HostMoves (s : State) (act : Action) : Prop :=
  (∃ rest, s.script = act :: rest) ∧ (s.busy = true → ∃ turns, s.schedule = .host :: turns)

/-- The next step is the core's, for the pending index `k` (log entries 1 and 2). -/
def CorePicks (s : State) (k : Nat) : Prop :=
  s.busy = true ∧ ∃ n, pickIndex s.pending n = some k ∧
    ((s.schedule = [] ∧ n = 0) ∨ ∃ turns, s.schedule = .core n :: turns)

/-- The condition under which a step of a legal state is refused with a given name: the rows of
rule R141 that a launched or attempted command can meet, and `noSuchWord` (log entry 6). Under every
other name no such step is refused. -/
def RefusalCondition (s : State) (e : Refusal) : Prop :=
  match e with
  | .precondition => s.busy = false ∧
      ∃ w cmd, HostMoves s (.wr 0x00 w) ∧ decode w = .ok cmd ∧ ¬ Preconditions cmd s
  | .reservedCommand => s.busy = false ∧ ∃ w, HostMoves s (.wr 0x00 w) ∧ w.extractLsb 31 2 ≠ 0
  | .reservedOffset =>
      (∃ off, HostMoves s (.partialAccess off)) ∨
      ∃ off, (0x28 < off ∨ off % 4 ≠ 0) ∧
        (HostMoves s (.rd off) ∨ (s.busy = false ∧ ∃ w, HostMoves s (.wr off w)))
  | .writeWhileBusy => s.busy = true ∧ ∃ off w, HostMoves s (.wr off w) ∧ off ≠ 0x04
  | .hostTouchedBuffer => s.busy = true ∧ ∃ a v, HostMoves s (.mw a v) ∧
      ((s.sb ≤ a ∧ a < s.sb + s.sw * s.sh) ∨ (s.db ≤ a ∧ a < s.db + s.dw * s.dh))
  | .unwrittenSource => ∃ cmd k, CorePicks s k ∧ s.oplatch = some cmd ∧ ¬ ReadsWritten cmd s k
  | .noSuchWord a => s.memWords ≤ a ∧ (HostMoves s (.mr a) ∨ ∃ v, HostMoves s (.mw a v))
  | _ => False

/-- The nine operand registers of two states are the same. -/
def SameOperands (s t : State) : Prop :=
  t.srcBase = s.srcBase ∧ t.srcWidth = s.srcWidth ∧ t.srcHeight = s.srcHeight ∧
  t.dstBase = s.dstBase ∧ t.dstWidth = s.dstWidth ∧ t.dstHeight = s.dstHeight ∧
  t.xfac = s.xfac ∧ t.yfac = s.yfac ∧ t.blurDist = s.blurDist

/-- `s` is on the way of the command `cmd` launched at `l` (rules R28, R53, R68, R75): the operands
and the source words are those of the launch; a destination word is the launch's while its index is
pending and `OUT_cmd` on the launch's memory afterwards. -/
structure InFlight (cmd : Instr) (l s : State) : Prop where
  busy : s.busy = true
  done : s.done = false
  latch : s.oplatch = some cmd
  operands : SameOperands l s
  memWords : s.memWords = l.memWords
  source : ∀ a, l.sb ≤ a → a < l.sb + l.sw * l.sh → s.pmem.read a = l.pmem.read a
  waiting : ∀ k ∈ s.pending, s.pmem.read (l.db + k) = l.pmem.read (l.db + k)
  written : ∀ k, k < l.dw * l.dh → k ∉ s.pending →
    ∃ v acc, outIndex cmd l k = .next (v, acc) ∧ s.pmem.read (l.db + k) = some v

end Sys2Proof.Machine
end

