-- ==== Sys2Proof/Certificates/Slice0/Obligations.lean ====
section
/-!
DEFINITION. The statements about pixel_averager, one `def Obligations.<Name> : Prop` each. They are
listed in OBLIGATIONS.json; nothing is proved here. The fields `script` and `schedule`, and what
`step` makes of them (log entries 1, 2 and 15), and the field `readData`, where a word the host has
read stands (log entry 12), are the model's own, not rules of the spec.
-/

open Sys2Proof Sys2Proof.Machine

/-! ## Command words -/

/-- Rule R64: the four command words and every other word. -/
def Obligations.DecodeFollowsOpcodeMap : Prop :=
  ∀ w : Word, decode w =
    if w = 0x00000000#32 then .ok .squash
    else if w = 0x00000001#32 then .ok .colorrot
    else if w = 0x00000002#32 then .ok .blur
    else if w = 0x00000003#32 then .ok .expand
    else .error .reservedCommand

/-- Rules R63, R64: decoding an encoded command gives it back, and a word that decodes is the
encoding of what it decodes to, with bits 31:2 zero. -/
def Obligations.DecodeAndEncodeAgree : Prop :=
  (∀ i : Instr, i.wellFormed = true → decode (encode i) = .ok i) ∧
  (∀ (w : Word) (i : Instr), decode w = .ok i → w = encode i ∧ w.extractLsb 31 2 = 0)

/-- Words written out from rules R63, R64 and the vectors V-REG-9 and V-REG-10. -/
def Obligations.WrittenOutWordsDecode : Prop :=
  decode 0b00000000000000000000000000000000#32 = .ok .squash ∧
  decode 0b00000000000000000000000000000001#32 = .ok .colorrot ∧
  decode 0b00000000000000000000000000000010#32 = .ok .blur ∧
  decode 0b00000000000000000000000000000011#32 = .ok .expand ∧
  decode 0x00000004#32 = .error .reservedCommand ∧
  decode 0x80000001#32 = .error .reservedCommand ∧
  decode 0x00010002#32 = .error .reservedCommand ∧
  decode 0xFFFFFFFF#32 = .error .reservedCommand

/-- Rule R62: the host's write of a command word to `CMD` of an idle core runs the decoded
command; the write is taken off the script, nothing else is added.
Model's choice: `script` (log entries 1, 15). -/
def Obligations.StepRunsDecodedCommand : Prop :=
  ∀ (s : State) (w : Word) (i : Instr) (rest : List Action),
    s.busy = false → s.script = .wr 0x00 w :: rest → decode w = .ok i →
    step s = exec i { s with script := rest }

/-- The word placed by `withFetchWord` is what the next step of an idle machine runs (rule R62;
log entry 15). -/
def Obligations.FetchWordIsRunNext : Prop :=
  ∀ (s : State) (n : Nat) (i : Instr), s.busy = false → n < 2 ^ 32 →
    decodeTableWord 32 n = some i → step (s.withFetchWord 32 n) = exec i s

/-- Rules R62, R71 (a): a reserved command word written to `CMD` of an idle core is refused,
whatever the operand registers hold.
Model's choice: `script` (log entries 1, 15). -/
def Obligations.ReservedCommandIsRefused : Prop :=
  ∀ (s : State) (w : Word) (rest : List Action),
    s.busy = false → s.script = .wr 0x00 w :: rest → w.extractLsb 31 2 ≠ 0 →
    step s = .refused .reservedCommand

/-! ## Launch -/

/-- Rules R62, R66, R67, R100: where the preconditions hold `SQUASH` launches, and nothing but the
four named items changes; where they do not it is refused. -/
def Obligations.SquashLaunches : Prop :=
  ∀ s : State, s.busy = false →
    (Preconditions .squash s → exec .squash s = .next
      { s with
        oplatch := some .squash, pending := List.range (s.dw * s.dh), busy := true, done := false }) ∧
    (¬ Preconditions .squash s → exec .squash s = .refused .precondition)

/-- Rules R62, R66, R67, R105: the same for `COLORROT`. -/
def Obligations.ColorrotLaunches : Prop :=
  ∀ s : State, s.busy = false →
    (Preconditions .colorrot s → exec .colorrot s = .next
      { s with
        oplatch := some .colorrot, pending := List.range (s.dw * s.dh), busy := true,
        done := false }) ∧
    (¬ Preconditions .colorrot s → exec .colorrot s = .refused .precondition)

/-- Rules R62, R66, R67, R110: the same for `BLUR`. -/
def Obligations.BlurLaunches : Prop :=
  ∀ s : State, s.busy = false →
    (Preconditions .blur s → exec .blur s = .next
      { s with
        oplatch := some .blur, pending := List.range (s.dw * s.dh), busy := true, done := false }) ∧
    (¬ Preconditions .blur s → exec .blur s = .refused .precondition)

/-- Rules R62, R66, R67, R120: the same for `EXPAND`. -/
def Obligations.ExpandLaunches : Prop :=
  ∀ s : State, s.busy = false →
    (Preconditions .expand s → exec .expand s = .next
      { s with
        oplatch := some .expand, pending := List.range (s.dw * s.dh), busy := true, done := false }) ∧
    (¬ Preconditions .expand s → exec .expand s = .refused .precondition)

/-- Rule R67: what a launch does, for every command: it is reached only when admitted, sets
`OPLATCH`, `PENDING`, `BUSY` and `DONE`, leaves `PENDING` not empty, and changes nothing else.
Model's choice: the fields `memWords` (log entry 3), `powerUpSeed` (log entry 5), `readData` (log
entry 12), `script` and `schedule` (log entries 1, 2, 15), of which it says that they stay. -/
def Obligations.LaunchChangesOnlyProgressState : Prop :=
  ∀ (cmd : Instr) (s t : State), exec cmd s = .next t →
    Preconditions cmd s ∧
    t.oplatch = some cmd ∧ (∀ k, k ∈ t.pending ↔ k < s.dw * s.dh) ∧ t.pending ≠ [] ∧
    t.busy = true ∧ t.done = false ∧
    SameOperands s t ∧ (∀ a, t.pmem.read a = s.pmem.read a) ∧ t.acc = s.acc ∧
    t.memWords = s.memWords ∧ t.readData = s.readData ∧ t.script = s.script ∧
    t.schedule = s.schedule ∧ t.powerUpSeed = s.powerUpSeed

/-! ## Pixel steps and completion -/

/-- Rule R68: any pending index may be the next one.
Model's choice: `schedule` (log entries 1, 2). -/
def Obligations.AnyPendingIndexMayBeNext : Prop :=
  ∀ (s : State) (k : Nat), s.busy = true → k ∈ s.pending →
    ∃ n, ∀ rest, step { s with schedule := .core n :: rest } =
      pixelStep k { s with schedule := rest }

/-- Rules R68, R101: the pixel step of `SQUASH`. The destination word `db + k` becomes the source
word at `(row*yf, col*xf)`; every other word, every register and `ACC` stay.
Model's choice: `schedule` (log entries 1, 2). -/
def Obligations.SquashPixelStep : Prop :=
  ∀ (s : State) (n k : Nat) (rest : List Turn) (p : Word),
    Legal s → s.busy = true → s.oplatch = some .squash → s.schedule = .core n :: rest →
    pickIndex s.pending n = some k →
    s.pmem.read (s.sb + (k / s.dw * s.yf) * s.sw + k % s.dw * s.xf) = some p →
    ∃ t, step s = .next t ∧ t.pmem.read (s.db + k) = some p ∧
      (∀ a, a ≠ s.db + k → t.pmem.read a = s.pmem.read a) ∧
      t = { s with pmem := t.pmem, pending := s.pending.filter (· != k), schedule := rest }

/-- Rules R68, R106: the pixel step of `COLORROT`. New red = old blue, new green = old red, new
blue = old green, alpha kept.
Model's choice: `schedule` (log entries 1, 2). -/
def Obligations.ColorrotPixelStep : Prop :=
  ∀ (s : State) (n k : Nat) (rest : List Turn) (p : Word),
    Legal s → s.busy = true → s.oplatch = some .colorrot → s.schedule = .core n :: rest →
    pickIndex s.pending n = some k → s.pmem.read (s.sb + k) = some p →
    ∃ t v, step s = .next t ∧ t.pmem.read (s.db + k) = some v ∧
      redOf v = blueOf p ∧ greenOf v = redOf p ∧ blueOf v = greenOf p ∧ alphaOf v = alphaOf p ∧
      (∀ a, a ≠ s.db + k → t.pmem.read a = s.pmem.read a) ∧
      t = { s with pmem := t.pmem, pending := s.pending.filter (· != k), schedule := rest }

/-- Rules R68, R112, R114: the pixel step of `BLUR`, wherever the words of its own window are
written. Only `ACC` changes besides the destination word and `PENDING`.
Model's choice: `schedule` (log entries 1, 2). -/
def Obligations.BlurPixelStep : Prop :=
  ∀ (s : State) (n k : Nat) (rest : List Turn),
    Legal s → s.busy = true → s.oplatch = some .blur → s.schedule = .core n :: rest →
    pickIndex s.pending n = some k → ReadsWritten .blur s k →
    ∃ t v, step s = .next t ∧ t.pmem.read (s.db + k) = some v ∧
      IsBlurred s (k / s.dw) (k % s.dw) v ∧
      (∀ a, a ≠ s.db + k → t.pmem.read a = s.pmem.read a) ∧
      t = { s with
        pmem := t.pmem, pending := s.pending.filter (· != k), schedule := rest, acc := t.acc }

/-- Rules R68, R126: the pixel step of `EXPAND`, all nine cases, wherever the source words that its
case names are written.
Model's choice: `schedule` (log entries 1, 2). -/
def Obligations.ExpandPixelStep : Prop :=
  ∀ (s : State) (n k : Nat) (rest : List Turn),
    Legal s → s.busy = true → s.oplatch = some .expand → s.schedule = .core n :: rest →
    pickIndex s.pending n = some k → ReadsWritten .expand s k →
    ∃ t, step s = .next t ∧
      t.pmem.read (s.db + k) = some (expandWord s (k / s.dw) (k % s.dw)) ∧
      (∀ a, a ≠ s.db + k → t.pmem.read a = s.pmem.read a) ∧
      t = { s with pmem := t.pmem, pending := s.pending.filter (· != k), schedule := rest }

/-- Rule R69: the completion step clears `BUSY`, sets `DONE` and changes nothing else.
Model's choice: `schedule` (log entries 1, 2). -/
def Obligations.CompletionStep : Prop :=
  ∀ (s : State) (n : Nat) (rest : List Turn),
    s.busy = true → s.pending = [] → s.schedule = .core n :: rest →
    step s = .next { s with busy := false, done := true, schedule := rest }

/-- Rule R68: under the preconditions, with the source words that the chosen output pixel uses
written, a core step cannot fail, whatever the command and the index chosen.
Model's choice: `schedule` (log entries 1, 2). -/
def Obligations.CoreStepCannotFail : Prop :=
  ∀ (s : State) (n : Nat) (rest : List Turn),
    Legal s → s.busy = true → s.schedule = .core n :: rest →
    (∀ cmd k, s.oplatch = some cmd → pickIndex s.pending n = some k → ReadsWritten cmd s k) →
    ∃ t, step s = .next t

/-- Rules R41, R68, R141: the only way a core step of a legal state stops is a source word that
nothing has written.
Model's choice: `schedule` (log entries 1, 2). -/
def Obligations.CoreStepStopsOnlyOnUnwrittenSource : Prop :=
  ∀ (s : State) (n : Nat) (rest : List Turn),
    Legal s → s.busy = true → s.schedule = .core n :: rest →
    (∃ t, step s = .next t) ∨ step s = .refused .unwrittenSource

/-- Rules R41, R141, V-REG-18: a pixel step of any command that uses a source word never written is
refused by that name.
Model's choice: `schedule` (log entries 1, 2). -/
def Obligations.PixelStepOfUnwrittenWordIsRefused : Prop :=
  ∀ (cmd : Instr) (s : State) (n k : Nat) (rest : List Turn),
    Legal s → s.busy = true → s.oplatch = some cmd → s.schedule = .core n :: rest →
    pickIndex s.pending n = some k → ¬ ReadsWritten cmd s k →
    step s = .refused .unwrittenSource

/-! ## Pixel codec -/

/-- Rule R80: each channel is the 8-bit field at its place in the word. -/
def Obligations.DecodeChannelIsBitField : Prop :=
  ∀ (p : Word) (which : ChannelSel),
    (decodeCh p which).toNat = p.toNat / 2 ^ (24 - 8 * which.code) % 256

/-- Rule R81: packing, and that packing and decoding are inverse. -/
def Obligations.EncodePixelPacksChannels : Prop :=
  (∀ r g b a : Channel, (encodePx r g b a).toNat =
    r.toNat * 2 ^ 24 + g.toNat * 2 ^ 16 + b.toNat * 2 ^ 8 + a.toNat) ∧
  (∀ p : Word, encodePx (redOf p) (greenOf p) (blueOf p) (alphaOf p) = p) ∧
  (∀ r g b a : Channel, redOf (encodePx r g b a) = r ∧ greenOf (encodePx r g b a) = g ∧
    blueOf (encodePx r g b a) = b ∧ alphaOf (encodePx r g b a) = a)

/-- Rules R82, R85: `AVG2` lane by lane, with its corner cases. -/
def Obligations.Avg2IsLanewiseMean : Prop :=
  ∀ p q : Word,
    (∀ which, (decodeCh (avg2 p q) which).toNat =
      ((decodeCh p which).toNat + (decodeCh q which).toNat) / 2) ∧
    avg2 p p = p ∧ avg2 p q = avg2 q p ∧
    (∀ which,
      min (decodeCh p which).toNat (decodeCh q which).toNat ≤ (decodeCh (avg2 p q) which).toNat ∧
      (decodeCh (avg2 p q) which).toNat ≤ max (decodeCh p which).toNat (decodeCh q which).toNat)

/-- Rules R83, R85: `AVG4` lane by lane, one division of the whole sum, with its corner cases. -/
def Obligations.Avg4IsLanewiseMean : Prop :=
  ∀ p q r t : Word,
    (∀ which, (decodeCh (avg4 p q r t) which).toNat =
      ((decodeCh p which).toNat + (decodeCh q which).toNat +
        (decodeCh r which).toNat + (decodeCh t which).toNat) / 4) ∧
    avg4 p p p p = p ∧
    avg4 p q r t = avg4 q p r t ∧ avg4 p q r t = avg4 p r q t ∧ avg4 p q r t = avg4 p q t r ∧
    (∀ which,
      min (min (decodeCh p which).toNat (decodeCh q which).toNat)
        (min (decodeCh r which).toNat (decodeCh t which).toNat) ≤
          (decodeCh (avg4 p q r t) which).toNat ∧
      (decodeCh (avg4 p q r t) which).toNat ≤
        max (max (decodeCh p which).toNat (decodeCh q which).toNat)
          (max (decodeCh r which).toNat (decodeCh t which).toNat))

/-- Rule R107: the rotation has order three, its square is the inverse rotation, alpha is kept and
a grey pixel stays. -/
def Obligations.RotationHasOrderThree : Prop :=
  ∀ p : Word,
    rot (rot (rot p)) = p ∧
    rot (rot p) = encodePx (greenOf p) (blueOf p) (redOf p) (alphaOf p) ∧
    alphaOf (rot p) = alphaOf p ∧
    (redOf p = greenOf p → greenOf p = blueOf p → rot p = p) ∧
    (rot (rot p) = p ↔ redOf p = greenOf p ∧ greenOf p = blueOf p)

/-! ## Image accessor -/

/-- Rule R90: `PIXEL_AT` reads the word of a coordinate in bounds and is refused for every other,
negative ones included; a column past the row's end does not wrap. -/
def Obligations.PixelAtReadsOnlyInBounds : Prop :=
  ∀ (s : State) (img : Image) (row col : Int),
    ((0 ≤ row ∧ row < img.height ∧ 0 ≤ col ∧ col < img.width) →
      pixelAt s img row col = memRead s (img.base + row.toNat * img.width + col.toNat)) ∧
    (¬ (0 ≤ row ∧ row < img.height ∧ 0 ≤ col ∧ col < img.width) →
      pixelAt s img row col = .refused .pixelAtOutOfBounds)

/-- Rules R91, R92: row and column of a linear index, their corner cases and the round trip. -/
def Obligations.RowAndColumnInvertTheIndex : Prop :=
  (∀ i w : Nat, 1 ≤ w → ∃ r c, rowOf i w = .next r ∧ colOf i w = .next c ∧
    r = i / w ∧ c = i % w ∧ r * w + c = i ∧ c < w ∧ (i < w → r = 0) ∧ (w = 1 → r = i ∧ c = 0) ∧
    (∀ h, i < w * h → r < h)) ∧
  (∀ r c w : Nat, c < w → rowOf (r * w + c) w = .next r ∧ colOf (r * w + c) w = .next c) ∧
  (∀ i : Nat, rowOf i 0 = .refused .zeroWidth ∧ colOf i 0 = .refused .zeroWidth)

/-- Rule R95: `ACC_ACCUM` adds a pixel in bounds to the four sums and counts it, skips a coordinate
out of bounds, and the order of two coordinates does not matter. -/
def Obligations.AccumulateAddsInBoundsPixels : Prop :=
  (∀ (s : State) (img : Image) (row col : Nat) (p : Word) (acc : Acc),
    row < img.height → col < img.width → img.addr row col < s.memWords →
    s.pmem.read (img.addr row col) = some p →
    accAccum s img row col acc = .next
      { sumR := acc.sumR + (redOf p).toNat, sumG := acc.sumG + (greenOf p).toNat,
        sumB := acc.sumB + (blueOf p).toNat, sumA := acc.sumA + (alphaOf p).toNat,
        count := acc.count + 1 }) ∧
  (∀ (s : State) (img : Image) (row col : Int) (acc : Acc),
    ¬ (0 ≤ row ∧ row < img.height ∧ 0 ≤ col ∧ col < img.width) →
    accAccum s img row col acc = .next acc) ∧
  (∀ (s : State) (img : Image) (r1 c1 r2 c2 : Int) (acc out : Acc),
    accumAll s img [(r1, c1), (r2, c2)] acc = .next out →
    accumAll s img [(r2, c2), (r1, c1)] acc = .next out)

/-- Rule R96: `ACC_FINAL` is the truncated mean of each channel; with one, two or four accumulated
pixels it is that pixel, `AVG2` or `AVG4`; with count 0 it is refused. -/
def Obligations.AccFinalIsTruncatedMean : Prop :=
  (∀ acc : Acc, 1 ≤ acc.count → acc.sumR ≤ 255 * acc.count → acc.sumG ≤ 255 * acc.count →
    acc.sumB ≤ 255 * acc.count → acc.sumA ≤ 255 * acc.count →
    ∃ q, accFinal acc = .next q ∧
      (redOf q).toNat = acc.sumR / acc.count ∧ (greenOf q).toNat = acc.sumG / acc.count ∧
      (blueOf q).toNat = acc.sumB / acc.count ∧ (alphaOf q).toNat = acc.sumA / acc.count) ∧
  (∀ p q r t : Word,
    accFinal (Acc.zero.addPixel p) = .next p ∧
    accFinal ((Acc.zero.addPixel p).addPixel q) = .next (avg2 p q) ∧
    accFinal ((((Acc.zero.addPixel p).addPixel q).addPixel r).addPixel t) =
      .next (avg4 p q r t)) ∧
  (∀ acc : Acc, acc.count = 0 → accFinal acc = .refused .emptyAccumulator)

/-! ## Commands: whole images -/

/-- Rules R112, R113, R116 (a): scanning the clamped rectangle gives exactly what scanning all
`(2d+1)^2` window positions gives, in every state. -/
def Obligations.ClampedBlurEqualsFullWindowBlur : Prop :=
  ∀ (s : State) (row col : Nat), outBlur s row col = outBlurFullWindow s row col

/-- Rule R115: with distance 0 every output pixel is the source pixel, alpha included, and that
pixel is the only contributor. -/
def Obligations.BlurDistanceZeroIsCopy : Prop :=
  ∀ (s : State) (row col : Nat) (p : Word),
    s.blurDist = 0 → row < s.sh → col < s.sw →
    s.sb + row * s.sw + col < s.memWords → s.pmem.read (s.sb + row * s.sw + col) = some p →
    outBlur s row col = .next (p, Acc.zero.addPixel p)

/-- Rules R113, R116 (a): when the distance reaches over the whole image, the three colours are the
same at every position. -/
def Obligations.LargeDistanceBlurIsUniform : Prop :=
  ∀ (s : State) (row col row' col' : Nat) (v v' : Word) (acc acc' : Acc),
    s.sw ≤ s.dist + 1 → s.sh ≤ s.dist + 1 →
    row < s.sh → col < s.sw → row' < s.sh → col' < s.sw →
    outBlur s row col = .next (v, acc) → outBlur s row' col' = .next (v', acc') →
    acc = acc' ∧ acc.count = s.sw * s.sh ∧
      redOf v = redOf v' ∧ greenOf v = greenOf v' ∧ blueOf v = blueOf v'

/-- Rule R127 (e): `SQUASH` by 2 and 2 of what `EXPAND` wrote gives the original pixels. `u` is a
state whose source image is the destination image that `EXPAND` filled from `s`. -/
def Obligations.SquashUndoesExpand : Prop :=
  ∀ (s u : State), Preconditions .expand s → SourceWritten s →
    (∀ k, k < s.dw * s.dh →
      ∃ v acc, outIndex .expand s k = .next (v, acc) ∧ u.pmem.read (s.db + k) = some v) →
    u.srcBase = s.dstBase → u.srcWidth = s.dstWidth → u.srcHeight = s.dstHeight →
    u.xfac = 2 → u.yfac = 2 → u.memWords = s.memWords →
    ∀ row col, row < s.sh → col < s.sw →
      outSquash u row col = .next (sourceWord s row col)

/-- Rules R62, R68, R69, R75, R101: `SQUASH` from the command word to completion. It launches, its
`dw*dh` pixel steps in any order and the completion step follow, and the destination image holds
the sampled source pixels; no other word and no operand register has changed.
Model's choice: `schedule` (log entries 1, 2). -/
def Obligations.SquashWholeCommand : Prop :=
  ∀ (s : State) (picks : List Nat),
    Legal s → s.busy = false → Preconditions .squash s → SourceWritten s →
    s.schedule = picks.map Turn.core →
    ∃ u t, exec .squash s = .next u ∧
      Host.Core.run Sys2Proof.core (s.dw * s.dh + 1) u = .next t ∧
      (∀ row col, row < s.dh → col < s.dw →
        t.pmem.read (s.db + row * s.dw + col) = some (sourceWord s (row * s.yf) (col * s.xf))) ∧
      (∀ a, ¬ (s.db ≤ a ∧ a < s.db + s.dw * s.dh) → t.pmem.read a = s.pmem.read a) ∧
      SameOperands s t ∧ t.busy = false ∧ t.done = true ∧ t.pending = [] ∧ t.acc = s.acc

/-- Rules R62, R68, R69, R75, R106: `COLORROT` from the command word to completion.
Model's choice: `schedule` (log entries 1, 2). -/
def Obligations.ColorrotWholeCommand : Prop :=
  ∀ (s : State) (picks : List Nat),
    Legal s → s.busy = false → Preconditions .colorrot s → SourceWritten s →
    s.schedule = picks.map Turn.core →
    ∃ u t, exec .colorrot s = .next u ∧
      Host.Core.run Sys2Proof.core (s.dw * s.dh + 1) u = .next t ∧
      (∀ row col, row < s.dh → col < s.dw →
        ∃ v, t.pmem.read (s.db + row * s.dw + col) = some v ∧
          redOf v = blueOf (sourceWord s row col) ∧ greenOf v = redOf (sourceWord s row col) ∧
          blueOf v = greenOf (sourceWord s row col) ∧
          alphaOf v = alphaOf (sourceWord s row col)) ∧
      (∀ a, ¬ (s.db ≤ a ∧ a < s.db + s.dw * s.dh) → t.pmem.read a = s.pmem.read a) ∧
      SameOperands s t ∧ t.busy = false ∧ t.done = true ∧ t.pending = [] ∧ t.acc = s.acc

/-- Rules R62, R68, R69, R75, R112, R114: `BLUR` from the command word to completion.
Model's choice: `schedule` (log entries 1, 2). -/
def Obligations.BlurWholeCommand : Prop :=
  ∀ (s : State) (picks : List Nat),
    Legal s → s.busy = false → Preconditions .blur s → SourceWritten s →
    s.schedule = picks.map Turn.core →
    ∃ u t, exec .blur s = .next u ∧
      Host.Core.run Sys2Proof.core (s.dw * s.dh + 1) u = .next t ∧
      (∀ row col, row < s.dh → col < s.dw →
        ∃ v, t.pmem.read (s.db + row * s.dw + col) = some v ∧ IsBlurred s row col v) ∧
      (∀ a, ¬ (s.db ≤ a ∧ a < s.db + s.dw * s.dh) → t.pmem.read a = s.pmem.read a) ∧
      SameOperands s t ∧ t.busy = false ∧ t.done = true ∧ t.pending = []

/-- Rules R62, R68, R69, R75, R126: `EXPAND` from the command word to completion.
Model's choice: `schedule` (log entries 1, 2). -/
def Obligations.ExpandWholeCommand : Prop :=
  ∀ (s : State) (picks : List Nat),
    Legal s → s.busy = false → Preconditions .expand s → SourceWritten s →
    s.schedule = picks.map Turn.core →
    ∃ u t, exec .expand s = .next u ∧
      Host.Core.run Sys2Proof.core (s.dw * s.dh + 1) u = .next t ∧
      (∀ row col, row < s.dh → col < s.dw →
        t.pmem.read (s.db + row * s.dw + col) = some (expandWord s row col)) ∧
      (∀ a, ¬ (s.db ≤ a ∧ a < s.db + s.dw * s.dh) → t.pmem.read a = s.pmem.read a) ∧
      SameOperands s t ∧ t.busy = false ∧ t.done = true ∧ t.pending = [] ∧ t.acc = s.acc

/-- Rule R75: the pixel steps refine the whole command as one function, whatever their order: the
memory at completion is exactly the one the function gives.
Model's choice: `schedule` (log entries 1, 2). -/
def Obligations.PixelStepsRefineWholeCommand : Prop :=
  ∀ (cmd : Instr) (s : State) (picks : List Nat),
    Legal s → s.busy = false → Preconditions cmd s → SourceWritten s →
    s.schedule = picks.map Turn.core →
    ∃ t m, Host.Core.run Sys2Proof.core (s.dw * s.dh + 1) (launch cmd (s.dw * s.dh) s) = .next t ∧
      wholeCommand cmd s = .next m ∧ t.pmem = m ∧ SameOperands s t ∧
      t.busy = false ∧ t.done = true

/-! ## The whole machine -/

/-- The invariant holds right after reset. It rests on the model's `MEMWORDS` of 0x1000 at reset (log
entry 3) and on its own fields. -/
def Obligations.ResetIsLegal : Prop := Legal State.reset

/-- The invariant is kept by every step of every legal state (rules R4, R16, R26, R28, R41). -/
def Obligations.StepKeepsLegality : Prop :=
  ∀ s t : State, Legal s → step s = .next t → Legal t

/-- A launch puts a command in flight. -/
def Obligations.LaunchPutsInFlight : Prop :=
  ∀ (cmd : Instr) (s t : State), exec cmd s = .next t → InFlight cmd s t

/-- Rules R28, R53, R68, R69, R146, R162, R167: whatever the host does and whichever index is taken,
a command in flight stays in flight with its source words and finished destination words in place,
until the completion step or a reset; nothing else ends it.
Model's choice: `script` and `schedule` (log entries 1, 2, 15). -/
def Obligations.InFlightUntilCompletionOrReset : Prop :=
  ∀ (cmd : Instr) (l s t : State), Legal s → InFlight cmd l s → step s = .next t →
    InFlight cmd l t ∨
    (s.pending = [] ∧ t = { s with busy := false, done := true, schedule := s.schedule.tail }) ∨
    (∃ rest, s.script = .rst :: rest ∧ t.script = rest ∧ t.busy = false ∧ t.done = false ∧
      t.pending = [] ∧ t.pmem = s.pmem)

/-- Rules R52, R53, R68, R69, R75: a command that completes has done its whole destination image.
First the core step of a command in flight with nothing pending; then every run: if a command is
launched at `l`, the host and the core take any steps whatever while `BUSY` stays 1, and the next
step sets `DONE`, then each destination word is `OUT_cmd` evaluated on the memory at `l`, and the
source image is still that of `l`.
Model's choice: `script` and `schedule` (log entries 1, 2, 15). -/
def Obligations.CompletedCommandHasWrittenItsDestination : Prop :=
  (∀ (cmd : Instr) (l s : State) (n : Nat) (rest : List Turn),
    Legal s → InFlight cmd l s → s.pending = [] → s.schedule = .core n :: rest →
    ∃ t, step s = .next t ∧ t.busy = false ∧ t.done = true ∧ SameOperands l t ∧
      ∀ k, k < l.dw * l.dh →
        ∃ v acc, outIndex cmd l k = .next (v, acc) ∧ t.pmem.read (l.db + k) = some v) ∧
  (∀ (cmd : Instr) (l u s t : State) (m : Nat),
    Legal l → exec cmd l = .next u → Host.Core.run Sys2Proof.core m u = .next s →
    (∀ (j : Nat) (x : State), j ≤ m → Host.Core.run Sys2Proof.core j u = .next x → x.busy = true) →
    step s = .next t → t.done = true →
    t.busy = false ∧ SameOperands l t ∧
    (∀ k, k < l.dw * l.dh →
      ∃ v acc, outIndex cmd l k = .next (v, acc) ∧ t.pmem.read (l.db + k) = some v) ∧
    (∀ a, l.sb ≤ a → a < l.sb + l.sw * l.sh → t.pmem.read a = l.pmem.read a))

/-- Rule R16: `DONE` is set only by completion and cleared only by a launch or a reset.
Model's choice: `script` (log entries 1, 15). -/
def Obligations.DoneChangesOnlyByCompletionLaunchReset : Prop :=
  ∀ s t : State, step s = .next t →
    (s.done = false → t.done = true → s.busy = true ∧ s.pending = [] ∧ t.busy = false) ∧
    (s.done = true → t.done = false →
      (∃ w rest, s.busy = false ∧ s.script = .wr 0x00 w :: rest ∧ t.script = rest ∧
        t.busy = true) ∨
      (∃ rest, s.script = .rst :: rest ∧
        t = applyReset { s with script := rest, schedule := t.schedule }))

/-- Rules R12, R13: no command and no core step writes an operand register: only a host write to
that register of an idle core, and a reset, change one.
Model's choice: `script` (log entries 1, 15). -/
def Obligations.OperandRegistersChangeOnlyByHost : Prop :=
  ∀ s t : State, step s = .next t →
    SameOperands s t ∨
    (∃ r w rest, s.busy = false ∧ s.script = .wr (Reg.offset r) w :: rest ∧
      r ≠ .cmd ∧ r ≠ .status ∧ t = setReg r w { s with script := rest }) ∨
    (∃ rest, s.script = .rst :: rest ∧
      t = applyReset { s with script := rest, schedule := t.schedule })

/-- Rules R41, R48, R68, R167: a word of `PMEM` changes only by the pixel step of its own pending
destination index, or by a host write to it that touches no region in flight.
Model's choice: `script` (log entries 1, 15). -/
def Obligations.MemoryChangesOnlyByPixelStepOrHostWrite : Prop :=
  ∀ (s t : State) (a : Nat), step s = .next t → t.pmem.read a ≠ s.pmem.read a →
    (s.busy = true ∧ ∃ k ∈ s.pending, a = s.db + k ∧ t.pending = s.pending.filter (· != k)) ∨
    (∃ v rest, s.script = .mw a v :: rest ∧ t.script = rest ∧ inFlightRegion s a = false ∧
      t.pmem.read a = some v)

/-- Rule R26: `ACC` is written only by a pixel step of `BLUR`, and by reset.
Model's choice: `script` (log entries 1, 15). -/
def Obligations.AccChangesOnlyInBlur : Prop :=
  ∀ s t : State, step s = .next t → t.acc ≠ s.acc →
    (s.busy = true ∧ s.oplatch = some .blur ∧ s.pending ≠ [] ∧ t.script = s.script) ∨
    (∃ rest, s.script = .rst :: rest ∧
      t = applyReset { s with script := rest, schedule := t.schedule })

/-- Rules R140, R141, R142: no step of any state faults (there is no reason to fault with), and a
step of a legal state is refused exactly on the conditions listed, under their names.
Model's choice: `noSuchWord` (log entry 6), `script` and `schedule` (log entries 1, 2, 15), the name
of a busy write at a reserved offset (log entry 11). -/
def Obligations.StepIsRefusedExactlyOnTheListedConditions : Prop :=
  (∀ (s : State) (e : Fault), step s ≠ .fault e) ∧
  (∀ (s : State) (e : Refusal), Legal s → (step s = .refused e ↔ RefusalCondition s e))

/-- Rules R149, R161: an idle machine to which the host does nothing keeps all its state (the
idle step itself is the choice of log entry 21).
Model's choice: `script` (log entries 1, 15). -/
def Obligations.IdleMachineKeepsItsState : Prop :=
  ∀ s : State, s.busy = false → s.script = [] → step s = .next s

/-- Rule R13: a command's result and admission do not depend on the registers it ignores. -/
def Obligations.IgnoredRegistersHaveNoEffect : Prop :=
  ∀ (s : State) (x y d : Dim) (k : Nat),
    outIndex .colorrot { s with xfac := x, yfac := y, blurDist := d } k = outIndex .colorrot s k ∧
    outIndex .expand { s with xfac := x, yfac := y, blurDist := d } k = outIndex .expand s k ∧
    outIndex .blur { s with xfac := x, yfac := y } k = outIndex .blur s k ∧
    outIndex .squash { s with blurDist := d } k = outIndex .squash s k ∧
    admits .colorrot { s with xfac := x, yfac := y, blurDist := d } = admits .colorrot s ∧
    admits .expand { s with xfac := x, yfac := y, blurDist := d } = admits .expand s ∧
    admits .blur { s with xfac := x, yfac := y, blurDist := d } = admits .blur s ∧
    admits .squash { s with blurDist := d } = admits .squash s

/-! ## The register port -/

/-- Rules R14, R17 to R25, R61: a write at the offset of an operand register of an idle core stores
the word, or its low 16 bits, in that register; every other register, `PMEM`, `ACC` and the hidden
state stay, and so do the model's own fields (log entries 3, 5, 12).
Model's choice: `script` and `schedule` (log entries 1, 2, 15). -/
def Obligations.RegisterWriteStoresItsField : Prop :=
  ∀ (s : State) (off : Nat) (r : Reg) (w : Word) (rest : List Action),
    s.busy = false → (off, r) ∈ registerMap → r ≠ .cmd → r ≠ .status →
    s.script = .wr off w :: rest →
    ∃ t, step s = .next t ∧
      (getReg r t).toNat =
        (if r = .srcBase ∨ r = .dstBase then w.toNat else w.toNat % 2 ^ 16) ∧
      (∀ r', r' ≠ r → getReg r' t = getReg r' s) ∧
      t.busy = s.busy ∧ t.done = s.done ∧ t.pmem = s.pmem ∧ t.acc = s.acc ∧
      t.oplatch = s.oplatch ∧ t.pending = s.pending ∧ t.memWords = s.memWords ∧
      t.readData = s.readData ∧ t.script = rest ∧ t.schedule = s.schedule ∧
      t.powerUpSeed = s.powerUpSeed

/-- Rules R14, R15, R16, R61: a register read is allowed at any time, returns the register at that
offset (`CMD` reads 0, `STATUS` reads `DONE` in bit 1 and `BUSY` in bit 0, a 16-bit register reads
zero-extended) and changes nothing.
Model's choice: `readData`, where the word read stands (log entry 12), `script` and `schedule` (log
entries 1, 2, 15). -/
def Obligations.RegisterReadReturnsItsValue : Prop :=
  (∀ (s : State) (off : Nat) (r : Reg) (rest : List Action), s.busy = false →
    (off, r) ∈ registerMap → s.script = .rd off :: rest →
    step s = .next { s with script := rest, readData := getReg r s }) ∧
  (∀ (s : State) (off : Nat) (r : Reg) (rest : List Action) (turns : List Turn), s.busy = true →
    (off, r) ∈ registerMap → s.schedule = .host :: turns → s.script = .rd off :: rest →
    step s = .next { s with script := rest, schedule := turns, readData := getReg r s }) ∧
  (∀ s : State, getReg .cmd s = 0 ∧
    (getReg .status s).toNat = 2 * s.done.toNat + s.busy.toNat ∧
    (getReg .srcBase s).toNat = s.sb ∧ (getReg .srcWidth s).toNat = s.sw ∧
    (getReg .srcHeight s).toNat = s.sh ∧ (getReg .dstBase s).toNat = s.db ∧
    (getReg .dstWidth s).toNat = s.dw ∧ (getReg .dstHeight s).toNat = s.dh ∧
    (getReg .xfac s).toNat = s.xf ∧ (getReg .yfac s).toNat = s.yf ∧
    (getReg .blurDist s).toNat = s.dist)

/-- Rules R16, R61: a write to `STATUS` changes no state, busy or not.
Model's choice: `script` and `schedule` (log entries 1, 2, 15). -/
def Obligations.StatusWriteIsIgnored : Prop :=
  (∀ (s : State) (w : Word) (rest : List Action), s.busy = false →
    s.script = .wr 0x04 w :: rest → step s = .next { s with script := rest }) ∧
  (∀ (s : State) (w : Word) (rest : List Action) (turns : List Turn), s.busy = true →
    s.schedule = .host :: turns → s.script = .wr 0x04 w :: rest →
    step s = .next { s with script := rest, schedule := turns })

/-- Rules R61, R145, R166: while `BUSY = 1` a register write other than to `STATUS` is refused,
whatever its offset and word (at a reserved offset the name is the choice of log entry 11).
Model's choice: `script` and `schedule` (log entries 1, 2, 15). -/
def Obligations.WriteWhileBusyIsRefused : Prop :=
  ∀ (s : State) (off : Nat) (w : Word) (rest : List Action) (turns : List Turn),
    s.busy = true → s.schedule = .host :: turns → s.script = .wr off w :: rest → off ≠ 0x04 →
    step s = .refused .writeWhileBusy

/-- Rules R61, R71 (b): an access at a reserved offset, or not of a whole word, is refused; a read
and a partial access while busy too (log entry 11; a busy write is `WriteWhileBusy`).
Model's choice: `script` (log entries 1, 15). -/
def Obligations.ReservedOffsetIsRefused : Prop :=
  (∀ (s : State) (off : Nat) (rest : List Action), s.busy = false →
    ((0x28 < off ∨ off % 4 ≠ 0) →
      (s.script = .rd off :: rest → step s = .refused .reservedOffset) ∧
      (∀ w, s.script = .wr off w :: rest → step s = .refused .reservedOffset)) ∧
    (s.script = .partialAccess off :: rest → step s = .refused .reservedOffset)) ∧
  (∀ (s : State) (off : Nat) (rest : List Action) (turns : List Turn), s.busy = true →
    s.schedule = .host :: turns →
    ((0x28 < off ∨ off % 4 ≠ 0) → s.script = .rd off :: rest →
      step s = .refused .reservedOffset) ∧
    (s.script = .partialAccess off :: rest → step s = .refused .reservedOffset))

/-! ## The host's own memory accesses, waiting and reset -/

/-- Rules R41, R53, R73: a host write of an idle machine replaces that word and no other; a host
read, of an idle machine and of a busy one, in every region, returns the word and changes nothing,
and answers even where nothing has been written (log entry 5: the value there is free). Where no
word exists both are refused.
Model's choice: `noSuchWord` (log entry 6), `readData`, where the word read stands (log entry 12),
`script` and `schedule` (log entries 1, 2, 15). -/
def Obligations.HostMemoryAccess : Prop :=
  (∀ (s : State) (a : Nat) (v : Word) (rest : List Action), s.busy = false →
    a < s.memWords → s.script = .mw a v :: rest →
    ∃ t, step s = .next t ∧ t.pmem.read a = some v ∧
      (∀ b, b ≠ a → t.pmem.read b = s.pmem.read b) ∧
      t = { s with script := rest, pmem := t.pmem }) ∧
  (∀ (s : State) (a : Nat) (rest : List Action), s.busy = false →
    a < s.memWords → s.script = .mr a :: rest →
    ∃ v, step s = .next { s with script := rest, readData := v } ∧
      (∀ p, s.pmem.read a = some p → v = p)) ∧
  (∀ (s : State) (a : Nat) (rest : List Action) (turns : List Turn), s.busy = true →
    a < s.memWords → s.schedule = .host :: turns → s.script = .mr a :: rest →
    ∃ v, step s = .next { s with script := rest, schedule := turns, readData := v } ∧
      (∀ p, s.pmem.read a = some p → v = p)) ∧
  (∀ (s : State) (a : Nat) (rest : List Action), s.busy = false → s.memWords ≤ a →
    (s.script = .mr a :: rest → step s = .refused (.noSuchWord a)) ∧
    (∀ v, s.script = .mw a v :: rest → step s = .refused (.noSuchWord a))) ∧
  (∀ (s : State) (a : Nat) (rest : List Action) (turns : List Turn), s.busy = true →
    s.memWords ≤ a → s.schedule = .host :: turns → s.script = .mr a :: rest →
    step s = .refused (.noSuchWord a))

/-- Rules R53, R165, R167: while `BUSY = 1` a host write to the source or the destination region is
refused, one to any other word that exists is done, and one past the memory is refused (log
entry 6).
Model's choice: `script` and `schedule` (log entries 1, 2, 15). -/
def Obligations.HostWriteWhileBusy : Prop :=
  ∀ (s : State) (a : Nat) (v : Word) (rest : List Action) (turns : List Turn),
    s.busy = true → s.schedule = .host :: turns → s.script = .mw a v :: rest →
    ((s.sb ≤ a ∧ a < s.sb + s.sw * s.sh) ∨ (s.db ≤ a ∧ a < s.db + s.dw * s.dh) →
      step s = .refused .hostTouchedBuffer) ∧
    (¬ (s.sb ≤ a ∧ a < s.sb + s.sw * s.sh) → ¬ (s.db ≤ a ∧ a < s.db + s.dw * s.dh) →
      a < s.memWords →
      ∃ t, step s = .next t ∧ t.pmem.read a = some v ∧
        (∀ b, b ≠ a → t.pmem.read b = s.pmem.read b) ∧
        t = { s with script := rest, schedule := turns, pmem := t.pmem }) ∧
    (¬ (s.sb ≤ a ∧ a < s.sb + s.sw * s.sh) → ¬ (s.db ≤ a ∧ a < s.db + s.dw * s.dh) →
      s.memWords ≤ a → step s = .refused (.noSuchWord a))

/-- Rule R74: `WAIT` reads `STATUS` and goes on exactly when the word read has `DONE` = 1, so while
a command is in flight it reads 1 and stays.
Model's choice: one read a step, and `readData` (log entry 12), `script` and `schedule` (log entries
1, 2, 15). -/
def Obligations.WaitEndsWhenDone : Prop :=
  (∀ (s : State) (rest : List Action), s.busy = false → s.script = .wait :: rest →
    (s.done = true → step s = .next { s with script := rest, readData := 2 }) ∧
    (s.done = false → step s = .next { s with readData := 0 })) ∧
  (∀ (s : State) (rest : List Action) (turns : List Turn), s.busy = true → s.done = false →
    s.schedule = .host :: turns → s.script = .wait :: rest →
    step s = .next { s with schedule := turns, readData := 1 })

/-- Rules R32, R160, R162: the reset input puts the registers, `STATUS`, `ACC`, `OPLATCH` and
`PENDING` to their reset values, with a command in flight or not, and leaves `PMEM`.
Model's choice: `script` and `schedule` (log entries 1, 2, 15). -/
def Obligations.ResetInputEffect : Prop :=
  ∀ (s : State) (rest : List Action) (turns : List Turn), s.script = .rst :: rest →
    s.schedule = (if s.busy then .host :: turns else turns) →
    ∃ t, step s = .next t ∧
      (∀ r, getReg r t = 0) ∧ t.busy = false ∧ t.done = false ∧ t.acc = Acc.zero ∧
      t.oplatch = none ∧ t.pending = [] ∧ t.pmem = s.pmem ∧ t.memWords = s.memWords ∧
      t.script = rest ∧ t.schedule = turns

/-- Rule R32: the state after reset, and that no launch is admitted from it. -/
def Obligations.ResetValues : Prop :=
  (∀ r, getReg r State.reset = 0) ∧ State.reset.busy = false ∧ State.reset.done = false ∧
  State.reset.oplatch = none ∧ State.reset.pending = [] ∧
  State.reset.acc = { sumR := 0, sumG := 0, sumB := 0, sumA := 0, count := 0 } ∧
  (∀ a, State.reset.pmem.read a = none) ∧
  (∀ cmd, exec cmd State.reset = .refused .precondition)
end

