-- ==== Sys2Proof/Laws/State.lean ====
section
/-!
SUPPORT. One lemma per field per named update of `State`, so that no proof unfolds a record update.
-/

namespace Sys2Proof.Machine

open Sys2Proof

/-! ### `launch` -/

@[simp] theorem launch_srcBase (cmd : Instr) (n : Nat) (s : State) :
    (launch cmd n s).srcBase = s.srcBase := rfl
@[simp] theorem launch_srcWidth (cmd : Instr) (n : Nat) (s : State) :
    (launch cmd n s).srcWidth = s.srcWidth := rfl
@[simp] theorem launch_srcHeight (cmd : Instr) (n : Nat) (s : State) :
    (launch cmd n s).srcHeight = s.srcHeight := rfl
@[simp] theorem launch_dstBase (cmd : Instr) (n : Nat) (s : State) :
    (launch cmd n s).dstBase = s.dstBase := rfl
@[simp] theorem launch_dstWidth (cmd : Instr) (n : Nat) (s : State) :
    (launch cmd n s).dstWidth = s.dstWidth := rfl
@[simp] theorem launch_dstHeight (cmd : Instr) (n : Nat) (s : State) :
    (launch cmd n s).dstHeight = s.dstHeight := rfl
@[simp] theorem launch_xfac (cmd : Instr) (n : Nat) (s : State) :
    (launch cmd n s).xfac = s.xfac := rfl
@[simp] theorem launch_yfac (cmd : Instr) (n : Nat) (s : State) :
    (launch cmd n s).yfac = s.yfac := rfl
@[simp] theorem launch_blurDist (cmd : Instr) (n : Nat) (s : State) :
    (launch cmd n s).blurDist = s.blurDist := rfl
@[simp] theorem launch_busy (cmd : Instr) (n : Nat) (s : State) :
    (launch cmd n s).busy = true := rfl
@[simp] theorem launch_done (cmd : Instr) (n : Nat) (s : State) :
    (launch cmd n s).done = false := rfl
@[simp] theorem launch_pmem (cmd : Instr) (n : Nat) (s : State) :
    (launch cmd n s).pmem = s.pmem := rfl
@[simp] theorem launch_acc (cmd : Instr) (n : Nat) (s : State) :
    (launch cmd n s).acc = s.acc := rfl
@[simp] theorem launch_oplatch (cmd : Instr) (n : Nat) (s : State) :
    (launch cmd n s).oplatch = some cmd := rfl
@[simp] theorem launch_pending (cmd : Instr) (n : Nat) (s : State) :
    (launch cmd n s).pending = List.range n := rfl
@[simp] theorem launch_memWords (cmd : Instr) (n : Nat) (s : State) :
    (launch cmd n s).memWords = s.memWords := rfl
@[simp] theorem launch_readData (cmd : Instr) (n : Nat) (s : State) :
    (launch cmd n s).readData = s.readData := rfl
@[simp] theorem launch_script (cmd : Instr) (n : Nat) (s : State) :
    (launch cmd n s).script = s.script := rfl
@[simp] theorem launch_schedule (cmd : Instr) (n : Nat) (s : State) :
    (launch cmd n s).schedule = s.schedule := rfl
@[simp] theorem launch_powerUpSeed (cmd : Instr) (n : Nat) (s : State) :
    (launch cmd n s).powerUpSeed = s.powerUpSeed := rfl

/-! ### `complete` -/

@[simp] theorem complete_srcBase (s : State) :
    (complete s).srcBase = s.srcBase := rfl
@[simp] theorem complete_srcWidth (s : State) :
    (complete s).srcWidth = s.srcWidth := rfl
@[simp] theorem complete_srcHeight (s : State) :
    (complete s).srcHeight = s.srcHeight := rfl
@[simp] theorem complete_dstBase (s : State) :
    (complete s).dstBase = s.dstBase := rfl
@[simp] theorem complete_dstWidth (s : State) :
    (complete s).dstWidth = s.dstWidth := rfl
@[simp] theorem complete_dstHeight (s : State) :
    (complete s).dstHeight = s.dstHeight := rfl
@[simp] theorem complete_xfac (s : State) :
    (complete s).xfac = s.xfac := rfl
@[simp] theorem complete_yfac (s : State) :
    (complete s).yfac = s.yfac := rfl
@[simp] theorem complete_blurDist (s : State) :
    (complete s).blurDist = s.blurDist := rfl
@[simp] theorem complete_busy (s : State) :
    (complete s).busy = false := rfl
@[simp] theorem complete_done (s : State) :
    (complete s).done = true := rfl
@[simp] theorem complete_pmem (s : State) :
    (complete s).pmem = s.pmem := rfl
@[simp] theorem complete_acc (s : State) :
    (complete s).acc = s.acc := rfl
@[simp] theorem complete_oplatch (s : State) :
    (complete s).oplatch = s.oplatch := rfl
@[simp] theorem complete_pending (s : State) :
    (complete s).pending = s.pending := rfl
@[simp] theorem complete_memWords (s : State) :
    (complete s).memWords = s.memWords := rfl
@[simp] theorem complete_readData (s : State) :
    (complete s).readData = s.readData := rfl
@[simp] theorem complete_script (s : State) :
    (complete s).script = s.script := rfl
@[simp] theorem complete_schedule (s : State) :
    (complete s).schedule = s.schedule := rfl
@[simp] theorem complete_powerUpSeed (s : State) :
    (complete s).powerUpSeed = s.powerUpSeed := rfl

/-! ### `applyReset` -/

@[simp] theorem applyReset_srcBase (s : State) :
    (applyReset s).srcBase = 0 := rfl
@[simp] theorem applyReset_srcWidth (s : State) :
    (applyReset s).srcWidth = 0 := rfl
@[simp] theorem applyReset_srcHeight (s : State) :
    (applyReset s).srcHeight = 0 := rfl
@[simp] theorem applyReset_dstBase (s : State) :
    (applyReset s).dstBase = 0 := rfl
@[simp] theorem applyReset_dstWidth (s : State) :
    (applyReset s).dstWidth = 0 := rfl
@[simp] theorem applyReset_dstHeight (s : State) :
    (applyReset s).dstHeight = 0 := rfl
@[simp] theorem applyReset_xfac (s : State) :
    (applyReset s).xfac = 0 := rfl
@[simp] theorem applyReset_yfac (s : State) :
    (applyReset s).yfac = 0 := rfl
@[simp] theorem applyReset_blurDist (s : State) :
    (applyReset s).blurDist = 0 := rfl
@[simp] theorem applyReset_busy (s : State) :
    (applyReset s).busy = false := rfl
@[simp] theorem applyReset_done (s : State) :
    (applyReset s).done = false := rfl
@[simp] theorem applyReset_pmem (s : State) :
    (applyReset s).pmem = s.pmem := rfl
@[simp] theorem applyReset_acc (s : State) :
    (applyReset s).acc = Acc.zero := rfl
@[simp] theorem applyReset_oplatch (s : State) :
    (applyReset s).oplatch = none := rfl
@[simp] theorem applyReset_pending (s : State) :
    (applyReset s).pending = [] := rfl
@[simp] theorem applyReset_memWords (s : State) :
    (applyReset s).memWords = s.memWords := rfl
@[simp] theorem applyReset_readData (s : State) :
    (applyReset s).readData = s.readData := rfl
@[simp] theorem applyReset_script (s : State) :
    (applyReset s).script = s.script := rfl
@[simp] theorem applyReset_schedule (s : State) :
    (applyReset s).schedule = s.schedule := rfl
@[simp] theorem applyReset_powerUpSeed (s : State) :
    (applyReset s).powerUpSeed = s.powerUpSeed := rfl

/-! ### `putWord` -/

@[simp] theorem putWord_srcBase (s : State) (a : Nat) (v : Word) :
    (s.putWord a v).srcBase = s.srcBase := rfl
@[simp] theorem putWord_srcWidth (s : State) (a : Nat) (v : Word) :
    (s.putWord a v).srcWidth = s.srcWidth := rfl
@[simp] theorem putWord_srcHeight (s : State) (a : Nat) (v : Word) :
    (s.putWord a v).srcHeight = s.srcHeight := rfl
@[simp] theorem putWord_dstBase (s : State) (a : Nat) (v : Word) :
    (s.putWord a v).dstBase = s.dstBase := rfl
@[simp] theorem putWord_dstWidth (s : State) (a : Nat) (v : Word) :
    (s.putWord a v).dstWidth = s.dstWidth := rfl
@[simp] theorem putWord_dstHeight (s : State) (a : Nat) (v : Word) :
    (s.putWord a v).dstHeight = s.dstHeight := rfl
@[simp] theorem putWord_xfac (s : State) (a : Nat) (v : Word) :
    (s.putWord a v).xfac = s.xfac := rfl
@[simp] theorem putWord_yfac (s : State) (a : Nat) (v : Word) :
    (s.putWord a v).yfac = s.yfac := rfl
@[simp] theorem putWord_blurDist (s : State) (a : Nat) (v : Word) :
    (s.putWord a v).blurDist = s.blurDist := rfl
@[simp] theorem putWord_busy (s : State) (a : Nat) (v : Word) :
    (s.putWord a v).busy = s.busy := rfl
@[simp] theorem putWord_done (s : State) (a : Nat) (v : Word) :
    (s.putWord a v).done = s.done := rfl
@[simp] theorem putWord_pmem (s : State) (a : Nat) (v : Word) :
    (s.putWord a v).pmem = s.pmem.write a v := rfl
@[simp] theorem putWord_acc (s : State) (a : Nat) (v : Word) :
    (s.putWord a v).acc = s.acc := rfl
@[simp] theorem putWord_oplatch (s : State) (a : Nat) (v : Word) :
    (s.putWord a v).oplatch = s.oplatch := rfl
@[simp] theorem putWord_pending (s : State) (a : Nat) (v : Word) :
    (s.putWord a v).pending = s.pending := rfl
@[simp] theorem putWord_memWords (s : State) (a : Nat) (v : Word) :
    (s.putWord a v).memWords = s.memWords := rfl
@[simp] theorem putWord_readData (s : State) (a : Nat) (v : Word) :
    (s.putWord a v).readData = s.readData := rfl
@[simp] theorem putWord_script (s : State) (a : Nat) (v : Word) :
    (s.putWord a v).script = s.script := rfl
@[simp] theorem putWord_schedule (s : State) (a : Nat) (v : Word) :
    (s.putWord a v).schedule = s.schedule := rfl
@[simp] theorem putWord_powerUpSeed (s : State) (a : Nat) (v : Word) :
    (s.putWord a v).powerUpSeed = s.powerUpSeed := rfl

/-! ### `returnWord` -/

@[simp] theorem returnWord_srcBase (s : State) (w : Word) :
    (s.returnWord w).srcBase = s.srcBase := rfl
@[simp] theorem returnWord_srcWidth (s : State) (w : Word) :
    (s.returnWord w).srcWidth = s.srcWidth := rfl
@[simp] theorem returnWord_srcHeight (s : State) (w : Word) :
    (s.returnWord w).srcHeight = s.srcHeight := rfl
@[simp] theorem returnWord_dstBase (s : State) (w : Word) :
    (s.returnWord w).dstBase = s.dstBase := rfl
@[simp] theorem returnWord_dstWidth (s : State) (w : Word) :
    (s.returnWord w).dstWidth = s.dstWidth := rfl
@[simp] theorem returnWord_dstHeight (s : State) (w : Word) :
    (s.returnWord w).dstHeight = s.dstHeight := rfl
@[simp] theorem returnWord_xfac (s : State) (w : Word) :
    (s.returnWord w).xfac = s.xfac := rfl
@[simp] theorem returnWord_yfac (s : State) (w : Word) :
    (s.returnWord w).yfac = s.yfac := rfl
@[simp] theorem returnWord_blurDist (s : State) (w : Word) :
    (s.returnWord w).blurDist = s.blurDist := rfl
@[simp] theorem returnWord_busy (s : State) (w : Word) :
    (s.returnWord w).busy = s.busy := rfl
@[simp] theorem returnWord_done (s : State) (w : Word) :
    (s.returnWord w).done = s.done := rfl
@[simp] theorem returnWord_pmem (s : State) (w : Word) :
    (s.returnWord w).pmem = s.pmem := rfl
@[simp] theorem returnWord_acc (s : State) (w : Word) :
    (s.returnWord w).acc = s.acc := rfl
@[simp] theorem returnWord_oplatch (s : State) (w : Word) :
    (s.returnWord w).oplatch = s.oplatch := rfl
@[simp] theorem returnWord_pending (s : State) (w : Word) :
    (s.returnWord w).pending = s.pending := rfl
@[simp] theorem returnWord_memWords (s : State) (w : Word) :
    (s.returnWord w).memWords = s.memWords := rfl
@[simp] theorem returnWord_readData (s : State) (w : Word) :
    (s.returnWord w).readData = w := rfl
@[simp] theorem returnWord_script (s : State) (w : Word) :
    (s.returnWord w).script = s.script := rfl
@[simp] theorem returnWord_schedule (s : State) (w : Word) :
    (s.returnWord w).schedule = s.schedule := rfl
@[simp] theorem returnWord_powerUpSeed (s : State) (w : Word) :
    (s.returnWord w).powerUpSeed = s.powerUpSeed := rfl

/-! ### `dropPending` -/

@[simp] theorem dropPending_srcBase (s : State) (k : Nat) :
    (s.dropPending k).srcBase = s.srcBase := rfl
@[simp] theorem dropPending_srcWidth (s : State) (k : Nat) :
    (s.dropPending k).srcWidth = s.srcWidth := rfl
@[simp] theorem dropPending_srcHeight (s : State) (k : Nat) :
    (s.dropPending k).srcHeight = s.srcHeight := rfl
@[simp] theorem dropPending_dstBase (s : State) (k : Nat) :
    (s.dropPending k).dstBase = s.dstBase := rfl
@[simp] theorem dropPending_dstWidth (s : State) (k : Nat) :
    (s.dropPending k).dstWidth = s.dstWidth := rfl
@[simp] theorem dropPending_dstHeight (s : State) (k : Nat) :
    (s.dropPending k).dstHeight = s.dstHeight := rfl
@[simp] theorem dropPending_xfac (s : State) (k : Nat) :
    (s.dropPending k).xfac = s.xfac := rfl
@[simp] theorem dropPending_yfac (s : State) (k : Nat) :
    (s.dropPending k).yfac = s.yfac := rfl
@[simp] theorem dropPending_blurDist (s : State) (k : Nat) :
    (s.dropPending k).blurDist = s.blurDist := rfl
@[simp] theorem dropPending_busy (s : State) (k : Nat) :
    (s.dropPending k).busy = s.busy := rfl
@[simp] theorem dropPending_done (s : State) (k : Nat) :
    (s.dropPending k).done = s.done := rfl
@[simp] theorem dropPending_pmem (s : State) (k : Nat) :
    (s.dropPending k).pmem = s.pmem := rfl
@[simp] theorem dropPending_acc (s : State) (k : Nat) :
    (s.dropPending k).acc = s.acc := rfl
@[simp] theorem dropPending_oplatch (s : State) (k : Nat) :
    (s.dropPending k).oplatch = s.oplatch := rfl
@[simp] theorem dropPending_pending (s : State) (k : Nat) :
    (s.dropPending k).pending = s.pending.filter (fun j => j != k) := rfl
@[simp] theorem dropPending_memWords (s : State) (k : Nat) :
    (s.dropPending k).memWords = s.memWords := rfl
@[simp] theorem dropPending_readData (s : State) (k : Nat) :
    (s.dropPending k).readData = s.readData := rfl
@[simp] theorem dropPending_script (s : State) (k : Nat) :
    (s.dropPending k).script = s.script := rfl
@[simp] theorem dropPending_schedule (s : State) (k : Nat) :
    (s.dropPending k).schedule = s.schedule := rfl
@[simp] theorem dropPending_powerUpSeed (s : State) (k : Nat) :
    (s.dropPending k).powerUpSeed = s.powerUpSeed := rfl

/-! ### `withAcc` -/

@[simp] theorem withAcc_srcBase (s : State) (acc : Acc) :
    (s.withAcc acc).srcBase = s.srcBase := rfl
@[simp] theorem withAcc_srcWidth (s : State) (acc : Acc) :
    (s.withAcc acc).srcWidth = s.srcWidth := rfl
@[simp] theorem withAcc_srcHeight (s : State) (acc : Acc) :
    (s.withAcc acc).srcHeight = s.srcHeight := rfl
@[simp] theorem withAcc_dstBase (s : State) (acc : Acc) :
    (s.withAcc acc).dstBase = s.dstBase := rfl
@[simp] theorem withAcc_dstWidth (s : State) (acc : Acc) :
    (s.withAcc acc).dstWidth = s.dstWidth := rfl
@[simp] theorem withAcc_dstHeight (s : State) (acc : Acc) :
    (s.withAcc acc).dstHeight = s.dstHeight := rfl
@[simp] theorem withAcc_xfac (s : State) (acc : Acc) :
    (s.withAcc acc).xfac = s.xfac := rfl
@[simp] theorem withAcc_yfac (s : State) (acc : Acc) :
    (s.withAcc acc).yfac = s.yfac := rfl
@[simp] theorem withAcc_blurDist (s : State) (acc : Acc) :
    (s.withAcc acc).blurDist = s.blurDist := rfl
@[simp] theorem withAcc_busy (s : State) (acc : Acc) :
    (s.withAcc acc).busy = s.busy := rfl
@[simp] theorem withAcc_done (s : State) (acc : Acc) :
    (s.withAcc acc).done = s.done := rfl
@[simp] theorem withAcc_pmem (s : State) (acc : Acc) :
    (s.withAcc acc).pmem = s.pmem := rfl
@[simp] theorem withAcc_acc (s : State) (acc : Acc) :
    (s.withAcc acc).acc = acc := rfl
@[simp] theorem withAcc_oplatch (s : State) (acc : Acc) :
    (s.withAcc acc).oplatch = s.oplatch := rfl
@[simp] theorem withAcc_pending (s : State) (acc : Acc) :
    (s.withAcc acc).pending = s.pending := rfl
@[simp] theorem withAcc_memWords (s : State) (acc : Acc) :
    (s.withAcc acc).memWords = s.memWords := rfl
@[simp] theorem withAcc_readData (s : State) (acc : Acc) :
    (s.withAcc acc).readData = s.readData := rfl
@[simp] theorem withAcc_script (s : State) (acc : Acc) :
    (s.withAcc acc).script = s.script := rfl
@[simp] theorem withAcc_schedule (s : State) (acc : Acc) :
    (s.withAcc acc).schedule = s.schedule := rfl
@[simp] theorem withAcc_powerUpSeed (s : State) (acc : Acc) :
    (s.withAcc acc).powerUpSeed = s.powerUpSeed := rfl

/-! ### `setReg`: it changes no field but an operand register -/

@[simp] theorem setReg_busy (r : Reg) (w : Word) (s : State) :
    (setReg r w s).busy = s.busy := by cases r <;> rfl
@[simp] theorem setReg_done (r : Reg) (w : Word) (s : State) :
    (setReg r w s).done = s.done := by cases r <;> rfl
@[simp] theorem setReg_pmem (r : Reg) (w : Word) (s : State) :
    (setReg r w s).pmem = s.pmem := by cases r <;> rfl
@[simp] theorem setReg_acc (r : Reg) (w : Word) (s : State) :
    (setReg r w s).acc = s.acc := by cases r <;> rfl
@[simp] theorem setReg_oplatch (r : Reg) (w : Word) (s : State) :
    (setReg r w s).oplatch = s.oplatch := by cases r <;> rfl
@[simp] theorem setReg_pending (r : Reg) (w : Word) (s : State) :
    (setReg r w s).pending = s.pending := by cases r <;> rfl
@[simp] theorem setReg_memWords (r : Reg) (w : Word) (s : State) :
    (setReg r w s).memWords = s.memWords := by cases r <;> rfl
@[simp] theorem setReg_readData (r : Reg) (w : Word) (s : State) :
    (setReg r w s).readData = s.readData := by cases r <;> rfl
@[simp] theorem setReg_script (r : Reg) (w : Word) (s : State) :
    (setReg r w s).script = s.script := by cases r <;> rfl
@[simp] theorem setReg_schedule (r : Reg) (w : Word) (s : State) :
    (setReg r w s).schedule = s.schedule := by cases r <;> rfl
@[simp] theorem setReg_powerUpSeed (r : Reg) (w : Word) (s : State) :
    (setReg r w s).powerUpSeed = s.powerUpSeed := by cases r <;> rfl

/-- Two states with the same operand registers. -/
theorem SameOperands.refl (s : State) : SameOperands s s := by simp [SameOperands]

theorem SameOperands.trans {a b c : State} (h : SameOperands a b) (h' : SameOperands b c) :
    SameOperands a c := by
  simp only [SameOperands] at *
  grind

/-- The operand values of rule R65 follow from the operand registers. -/
theorem SameOperands.values {s t : State} (h : SameOperands s t) :
    t.sb = s.sb ∧ t.sw = s.sw ∧ t.sh = s.sh ∧ t.db = s.db ∧ t.dw = s.dw ∧ t.dh = s.dh ∧
      t.xf = s.xf ∧ t.yf = s.yf ∧ t.dist = s.dist := by
  obtain ⟨h1, h2, h3, h4, h5, h6, h7, h8, h9⟩ := h
  simp [State.sb, State.sw, State.sh, State.db, State.dw, State.dh, State.xf, State.yf,
    State.dist, h1, h2, h3, h4, h5, h6, h7, h8, h9]

/-- The admission test reads only the operand registers and `MEMWORDS` (rule R66). -/
theorem SameOperands.admits_eq {s t : State} (h : SameOperands s t)
    (hm : t.memWords = s.memWords) (cmd : Instr) : admits cmd t = admits cmd s := by
  obtain ⟨h1, h2, h3, h4, h5, h6, h7, h8, h9⟩ := h.values
  cases cmd <;>
    simp [admits, admitsSquash, admitsColorrot, admitsBlur, admitsExpand, pCommon, pDim, pFit,
      pDisj, pSqFac, pSqBnd, pSame, pExp, h1, h2, h3, h4, h5, h6, h7, h8, hm]

theorem sameOperands_launch (cmd : Instr) (n : Nat) (s : State) :
    SameOperands s (launch cmd n s) := by simp [SameOperands]

theorem sameOperands_complete (s : State) : SameOperands s (complete s) := by simp [SameOperands]

end Sys2Proof.Machine
end

