-- ==== Sys2Proof/Laws/Ops.lean ====
section
/-!
SUPPORT. What each shared operation can do, once: sequencing, the pixel memory, the launch attempt,
the choice of an index.
-/

namespace Sys2Proof.Machine

open Sys2Proof

/-! ## Sequencing -/

@[simp] theorem andThen_next {α β : Type} (a : α) (f : α → Result β) :
    andThen (.next a : Result α) f = f a := rfl

@[simp] theorem andThen_fault {α β : Type} (e : Fault) (f : α → Result β) :
    andThen (.fault e : Result α) f = .fault e := rfl

/-- Nothing faults: there is no fault to answer with (rules R140, R142). -/
theorem ne_fault {α : Type} {r : Result α} {e : Fault} : r ≠ .fault e := nomatch e

@[simp] theorem andThen_refused {α β : Type} (e : Refusal) (f : α → Result β) :
    andThen (.refused e : Result α) f = .refused e := rfl

/-- A sequence answers a value exactly when both of its parts do. -/
theorem andThen_eq_next {α β : Type} {r : Result α} {f : α → Result β} {b : β} :
    andThen r f = .next b ↔ ∃ a, r = .next a ∧ f a = .next b := by
  cases r <;> simp

/-- A sequence is refused where its first part is or, after a value, its second. -/
theorem andThen_eq_refused {α β : Type} {r : Result α} {f : α → Result β} {e : Refusal} :
    andThen r f = .refused e ↔ r = .refused e ∨ ∃ a, r = .next a ∧ f a = .refused e := by
  cases r <;> simp

theorem andThen_congr {α β : Type} {r r' : Result α} {f f' : α → Result β} (h : r = r')
    (hf : ∀ a, r = .next a → f a = f' a) : andThen r f = andThen r' f' := by
  subst h
  cases r <;> simp_all

/-! ## The pixel memory (rule R41) -/

@[simp] theorem PMem.read_nil (a : Nat) : PMem.read [] a = none := rfl

/-- A read after a write: the value written at its own address, as before at every other. -/
@[simp] theorem PMem.read_write (m : PMem) (a b : Nat) (v : Word) :
    (PMem.write m a v).read b = if b = a then some v else m.read b := by
  induction m with
  | nil => simp [PMem.write, PMem.read]
  | cons c m ih =>
    obtain ⟨d, w⟩ := c
    simp only [PMem.write]
    split
    · simp only [PMem.read]
    · split
      · subst_vars
        simp only [PMem.read]
        split <;> simp_all
      · simp only [PMem.read, ih]
        grind

theorem PMem.read_write_same (m : PMem) (a : Nat) (v : Word) :
    (PMem.write m a v).read a = some v := by simp

theorem PMem.read_write_other (m : PMem) {a b : Nat} (v : Word) (h : b ≠ a) :
    (PMem.write m a v).read b = m.read b := by simp [h]

/-- The listed cells after a write are the new one and cells that were listed before. -/
theorem PMem.mem_write {m : PMem} {a : Nat} {v : Word} {c : Nat × Word}
    (h : c ∈ PMem.write m a v) : c = (a, v) ∨ c ∈ m := by
  induction m with
  | nil => simpa [PMem.write] using h
  | cons d m ih =>
    obtain ⟨b, w⟩ := d
    simp only [PMem.write] at h
    split at h
    · simpa using h
    · split at h
      · simp only [List.mem_cons] at h ⊢
        tauto
      · simp only [List.mem_cons] at h ⊢
        rcases h with h | h
        · tauto
        · rcases ih h with h | h <;> tauto

/-- A word read is a listed cell. -/
theorem PMem.mem_of_read {m : PMem} {a : Nat} {v : Word} (h : m.read a = some v) : (a, v) ∈ m := by
  induction m with
  | nil => simp at h
  | cons d m ih =>
    obtain ⟨b, w⟩ := d
    simp only [PMem.read] at h
    split at h <;> simp_all

/-- The canonical form of a memory with a first cell. -/
theorem PMem.wf_cons {b : Nat} {w : Word} {m : PMem} :
    PMem.wf ((b, w) :: m) ↔ (∀ c ∈ m, b < c.1) ∧ PMem.wf m := by
  simp [PMem.wf]

/-- A write keeps the canonical form. -/
theorem PMem.write_wf {m : PMem} (h : m.wf) (a : Nat) (v : Word) : (PMem.write m a v).wf := by
  induction m with
  | nil => simp [PMem.write, PMem.wf]
  | cons d m ih =>
    obtain ⟨b, w⟩ := d
    rw [PMem.wf_cons] at h
    simp only [PMem.write]
    split
    · rename_i hab
      rw [PMem.wf_cons, PMem.wf_cons]
      refine ⟨fun c hc => ?_, h⟩
      rcases List.mem_cons.1 hc with rfl | hc
      · exact hab
      · exact hab.trans (h.1 c hc)
    · split
      · subst_vars
        rw [PMem.wf_cons]
        exact h
      · rw [PMem.wf_cons]
        refine ⟨fun c hc => ?_, ih h.2⟩
        rcases PMem.mem_write hc with rfl | hc
        · simp only
          omega
        · exact h.1 c hc

/-- In canonical form nothing is read below the first listed address. -/
theorem PMem.read_none_of_lt {m : PMem} {a : Nat} (h : ∀ c ∈ m, a < c.1) : m.read a = none := by
  induction m with
  | nil => rfl
  | cons d m ih =>
    obtain ⟨b, w⟩ := d
    have hb := h (b, w) (by simp)
    simp only [PMem.read]
    rw [if_neg (by simp only at hb; omega)]
    exact ih fun c hc => h c (List.mem_cons_of_mem _ hc)

/-- Equal memories are equal data: two memories in canonical form with the same reads are equal. -/
theorem PMem.ext_read {m n : PMem} (hm : m.wf) (hn : n.wf) (h : ∀ a, m.read a = n.read a) :
    m = n := by
  induction m generalizing n with
  | nil =>
    cases n with
    | nil => rfl
    | cons d n => have := h d.1; simp [PMem.read] at this
  | cons c m ih =>
    obtain ⟨a, v⟩ := c
    cases n with
    | nil => have := h a; simp [PMem.read] at this
    | cons d n =>
      obtain ⟨b, w⟩ := d
      rw [PMem.wf_cons] at hm hn
      have ha := h a
      have hb := h b
      have hab : a = b := by
        rcases Nat.lt_trichotomy a b with hlt | heq | hlt
        · rw [PMem.read_none_of_lt (m := (b, w) :: n)] at ha
          · simp [PMem.read] at ha
          · intro c hc
            rcases List.mem_cons.1 hc with rfl | hc
            · exact hlt
            · exact hlt.trans (hn.1 c hc)
        · exact heq
        · rw [PMem.read_none_of_lt (m := (a, v) :: m)] at hb
          · simp [PMem.read] at hb
          · intro c hc
            rcases List.mem_cons.1 hc with rfl | hc
            · exact hlt
            · exact hlt.trans (hm.1 c hc)
      subst hab
      have hvw : v = w := by simpa [PMem.read] using ha
      subst hvw
      congr 1
      refine ih hm.2 hn.2 fun x => ?_
      by_cases hx : x = a
      · subst hx
        rw [PMem.read_none_of_lt hm.1, PMem.read_none_of_lt hn.1]
      · simpa [PMem.read, hx] using h x

/-- The core reads the value of a written word that exists, and nothing else. -/
theorem memRead_eq_next {s : State} {a : Nat} {v : Word} :
    memRead s a = .next v ↔ a < s.memWords ∧ s.pmem.read a = some v := by
  simp only [memRead]
  split
  · split <;> simp_all
  · simp_all

/-- Where a core read is refused: at a word that exists and nothing has written, and where no word
exists. -/
theorem memRead_eq_refused {s : State} {a : Nat} {e : Refusal} :
    memRead s a = .refused e ↔
      (a < s.memWords ∧ s.pmem.read a = none ∧ e = .unwrittenSource) ∨
        (s.memWords ≤ a ∧ e = .noSuchWord a) := by
  by_cases h : a < s.memWords
  · cases hr : s.pmem.read a <;> simp [memRead, h, hr, Nat.not_le.2 h, eq_comm]
  · simp [memRead, h, Nat.not_lt.1 h, eq_comm]

theorem memRead_congr {s t : State} {a : Nat} (hm : t.memWords = s.memWords)
    (h : t.pmem.read a = s.pmem.read a) : memRead t a = memRead s a := by
  simp [memRead, hm, h]

/-- A write replaces one word that exists and changes nothing else. -/
theorem memWrite_eq_next {s t : State} {a : Nat} {v : Word} :
    memWrite s a v = .next t ↔ a < s.memWords ∧ t = s.putWord a v := by
  simp only [memWrite]
  split <;> simp_all [eq_comm]

/-- Where a write is refused: only where no word exists. -/
theorem memWrite_eq_refused {s : State} {a : Nat} {v : Word} {e : Refusal} :
    memWrite s a v = .refused e ↔ s.memWords ≤ a ∧ e = .noSuchWord a := by
  simp only [memWrite]
  split
  · simp; omega
  · simp [eq_comm]; omega

/-! ## Launch attempt (rules R62, R145) -/

/-- A launch attempt answers a state only when the core is idle and the command admitted, and then
the launched state. -/
theorem launchAttempt_eq_next {cmd : Instr} {ok : Bool} {n : Nat} {s t : State} :
    launchAttempt cmd ok n s = .next t ↔ s.busy = false ∧ ok = true ∧ t = launch cmd n s := by
  simp only [launchAttempt]
  split
  · simp_all
  · split
    · rename_i hb hok
      simp only [Host.Outcome.next.injEq, hb, hok, true_and]
      exact eq_comm
    · simp_all

/-- Where a launch attempt is refused: while a command is in flight, and where it is not admitted. -/
theorem launchAttempt_eq_refused {cmd : Instr} {ok : Bool} {n : Nat} {s : State} {e : Refusal} :
    launchAttempt cmd ok n s = .refused e ↔
      (s.busy = true ∧ e = .writeWhileBusy) ∨
        (s.busy = false ∧ ok = false ∧ e = .precondition) := by
  simp only [launchAttempt]
  cases s.busy <;> cases ok <;> simp [eq_comm]

/-- Every command's meaning is the launch attempt of rule R62 under its own admission test. -/
theorem exec_eq_launchAttempt (i : Instr) (s : State) :
    exec i s = launchAttempt i (admits i s) (s.dw * s.dh) s := by
  cases i <;> rfl

/-- What a command can do: launch, when the core is idle and its preconditions hold. -/
theorem exec_eq_next {i : Instr} {s t : State} :
    exec i s = .next t ↔
      s.busy = false ∧ admits i s = true ∧ t = launch i (s.dw * s.dh) s := by
  rw [exec_eq_launchAttempt, launchAttempt_eq_next]

/-! ## The choice of an index (rule R68) -/

/-- There is a choice exactly when an index is pending. -/
theorem pickIndex_eq_none {p : List Nat} {n : Nat} : pickIndex p n = none ↔ p = [] := by
  cases p with
  | nil => simp [pickIndex]
  | cons a p =>
    have : n % (a :: p).length < (a :: p).length := Nat.mod_lt _ (by simp)
    simp only [pickIndex, List.getElem?_eq_none_iff, reduceCtorEq, iff_false]
    omega

/-- The index chosen is a pending one. -/
theorem pickIndex_mem {p : List Nat} {n k : Nat} (h : pickIndex p n = some k) : k ∈ p :=
  List.mem_of_getElem? h

/-- Every pending index can be chosen. -/
theorem pickIndex_surj {p : List Nat} {k : Nat} (h : k ∈ p) : ∃ n, pickIndex p n = some k := by
  obtain ⟨i, hi, rfl⟩ := List.getElem_of_mem h
  exact ⟨i, by simp [pickIndex, Nat.mod_eq_of_lt hi]⟩

/-- A channel is made of a number below 256, unchanged, and of no other (rule R81). -/
theorem toChannel_eq_next {n : Nat} {c : Channel} :
    toChannel n = .next c ↔ n < 256 ∧ c.toNat = n := by
  simp only [toChannel]
  split
  · rename_i h
    constructor
    · intro e
      cases e
      exact ⟨h, by simp; omega⟩
    · rintro ⟨-, rfl⟩
      simp
  · simp_all

end Sys2Proof.Machine
end

