-- ==== Sys2Proof/Laws/Image.lean ====
section
/-!
SUPPORT. What the operations of the image_accessor unit and the per-pixel functions can do, once:
where they answer, what they read, and that an admitted command always answers.
-/

namespace Sys2Proof.Machine

open Sys2Proof

theorem rowOf_eq_next {k w r : Nat} : rowOf k w = .next r ↔ w ≠ 0 ∧ r = k / w := by
  simp only [rowOf]
  split <;> simp_all [eq_comm]

theorem colOf_eq_next {k w c : Nat} : colOf k w = .next c ↔ w ≠ 0 ∧ c = k % w := by
  simp only [colOf]
  split <;> simp_all [eq_comm]

/-- The in-bounds predicate on natural coordinates (rule R93). -/
@[simp] theorem inb_ofNat {img : Image} {row col : Nat} :
    inb img (row : Int) (col : Int) = true ↔ row < img.height ∧ col < img.width := by
  simp [inb]

/-- A coordinate pair in bounds is a pair of naturals in bounds. -/
theorem inb_eq_true {img : Image} {row col : Int} :
    inb img row col = true ↔
      ∃ r c : Nat, row = r ∧ col = c ∧ r < img.height ∧ c < img.width := by
  constructor
  · intro h
    simp only [inb, Bool.and_eq_true, decide_eq_true_eq] at h
    exact ⟨row.toNat, col.toNat, by omega, by omega, by omega, by omega⟩
  · rintro ⟨r, c, rfl, rfl, hr, hc⟩
    exact inb_ofNat.2 ⟨hr, hc⟩

/-- The address of a pixel in bounds lies in the region (rules R42, R43). -/
theorem Image.addr_lt_limit {img : Image} {row col : Nat} (hr : row < img.height)
    (hc : col < img.width) : img.addr row col < img.limit := by
  simp only [Image.addr, Image.limit]
  have h : (row + 1) * img.width ≤ img.height * img.width := Nat.mul_le_mul_right _ hr
  rw [Nat.mul_comm img.width img.height]
  linarith

/-- `PIXEL_AT` in bounds is the read of the pixel's word (rule R90). -/
theorem pixelAt_inb {s : State} {img : Image} {row col : Nat} (hr : row < img.height)
    (hc : col < img.width) : pixelAt s img row col = memRead s (img.addr row col) := by
  simp [pixelAt, hr, hc]

/-- `SRC` in bounds is the read of the source word (rules R65, R90). -/
theorem src_inb {s : State} {row col : Nat} (hr : row < s.sh) (hc : col < s.sw) :
    src s row col = memRead s (s.sb + row * s.sw + col) :=
  pixelAt_inb (img := srcImage s) hr hc

/-- `SRC` out of bounds is refused (U4). -/
theorem src_out {s : State} {row col : Nat} (h : ¬ (row < s.sh ∧ col < s.sw)) :
    src s row col = .refused .pixelAtOutOfBounds := by
  have : ¬ inb (srcImage s) (row : Int) (col : Int) = true := by
    rw [inb_ofNat]
    exact h
  simp [src, pixelAt, this]

/-- When `SRC` answers: the coordinate is in bounds and the word exists and was written. -/
theorem src_eq_next {s : State} {row col : Nat} {p : Word} :
    src s row col = .next p ↔
      row < s.sh ∧ col < s.sw ∧ s.sb + row * s.sw + col < s.memWords ∧
        s.pmem.read (s.sb + row * s.sw + col) = some p := by
  by_cases h : row < s.sh ∧ col < s.sw
  · rw [src_inb h.1 h.2, memRead_eq_next]
    tauto
  · rw [src_out h]
    simp only [reduceCtorEq, false_iff]
    tauto

/-! ## What a per-pixel function depends on -/

/-- Two states with the same operands, the same `MEMWORDS` and the same source words: all that a
per-pixel function reads (rules R54, R68). -/
structure SameSource (s t : State) : Prop where
  operands : SameOperands s t
  memWords : t.memWords = s.memWords
  source : ∀ a, s.sb ≤ a → a < s.sb + s.sw * s.sh → t.pmem.read a = s.pmem.read a

theorem SameSource.srcImage_eq {s t : State} (h : SameSource s t) : srcImage t = srcImage s := by
  obtain ⟨h1, h2, h3, -⟩ := h.operands.values
  simp [srcImage, h1, h2, h3]

theorem SameSource.pixelAt_eq {s t : State} (h : SameSource s t) (row col : Int) :
    pixelAt t (srcImage s) row col = pixelAt s (srcImage s) row col := by
  simp only [pixelAt]
  split
  · rename_i hb
    obtain ⟨r, c, rfl, rfl, hr, hc⟩ := inb_eq_true.1 hb
    have hlt := Image.addr_lt_limit hr hc
    refine memRead_congr h.memWords (h.source _ ?_ hlt)
    simp only [Image.addr, srcImage]
    omega
  · rfl

theorem SameSource.src_eq {s t : State} (h : SameSource s t) (row col : Nat) :
    src t row col = src s row col := by
  simp only [src, h.srcImage_eq]
  exact h.pixelAt_eq row col

theorem SameSource.accumAll_eq {s t : State} (h : SameSource s t) (l : List (Int × Int))
    (acc : Acc) : accumAll t (srcImage s) l acc = accumAll s (srcImage s) l acc := by
  induction l generalizing acc with
  | nil => rfl
  | cons rc l ih =>
    obtain ⟨rr, cc⟩ := rc
    simp only [accumAll, accAccum, h.pixelAt_eq, ih]

theorem SameSource.outBlur_eq {s t : State} (h : SameSource s t) (row col : Nat) :
    outBlur t row col = outBlur s row col := by
  obtain ⟨-, -, -, -, -, -, -, -, h9⟩ := h.operands.values
  simp only [outBlur, blurOver, accReset, h.srcImage_eq, h.accumAll_eq, h.src_eq, h9]

/-- The pixel a per-pixel function answers does not depend on `ACC`, on the destination or on
anything but the operands and the source (rules R27, R54, R68). -/
theorem SameSource.outIndex_eq {s t : State} (h : SameSource s t) (cmd : Instr) (k : Nat) :
    andThen (outIndex cmd t k) (fun out => .next out.1) =
      andThen (outIndex cmd s k) (fun out => (.next out.1 : Result Word)) := by
  obtain ⟨-, -, -, -, h5, -, h7, h8, -⟩ := h.operands.values
  simp only [outIndex, h5]
  cases rowOf k s.dw with
  | fault e => rfl
  | refused e => rfl
  | next row =>
    cases colOf k s.dw with
    | fault e => rfl
    | refused e => rfl
    | next col =>
      simp only [andThen_next]
      cases cmd with
      | squash =>
        simp only [outPixel, outSquash, h.src_eq, h7, h8]
        cases src s (row * s.yf) (col * s.xf) <;> rfl
      | colorrot =>
        simp only [outPixel, outColorrot, h.src_eq]
        cases src s row col <;> rfl
      | blur => simp only [outPixel, h.outBlur_eq]
      | expand =>
        have he : outExpand t row col = outExpand s row col := by
          obtain ⟨-, h2, h3, -⟩ := h.operands.values
          simp only [outExpand, srcAvg2, srcAvg4, h.src_eq, rightEdge, bottomEdge, h2, h3]
        simp only [outPixel, he]
        cases outExpand s row col <;> rfl

/-- A per-pixel function reads neither the schedule nor the script. -/
theorem outIndex_clock (cmd : Instr) (s : State) (script : List Action) (schedule : List Turn)
    (k : Nat) :
    outIndex cmd { s with script := script, schedule := schedule } k = outIndex cmd s k := by
  have hacc : ∀ l acc,
      accumAll { s with script := script, schedule := schedule } (srcImage s) l acc =
        accumAll s (srcImage s) l acc := by
    intro l
    induction l with
    | nil => intro acc; rfl
    | cons rc l ih => intro acc; simp only [accumAll, ih]; rfl
  cases cmd with
  | squash => rfl
  | colorrot => rfl
  | expand => rfl
  | blur =>
    have hb : ∀ row col,
        outBlur { s with script := script, schedule := schedule } row col = outBlur s row col := by
      intro row col
      show blurOver { s with script := script, schedule := schedule }
        (clampedWindow (srcImage s) s.dist row col) row col = _
      simp only [outBlur, blurOver]
      rw [show srcImage { s with script := script, schedule := schedule } = srcImage s from rfl,
        hacc]
      rfl
    simp only [outIndex, outPixel, hb]
    rfl

/-! ## The accumulator (rules R94 to R96) -/

/-- `ACC_ACCUM` answers `ACC` with one contributing pixel added, or `ACC` unchanged. -/
theorem accAccum_eq_next {s : State} {img : Image} {row col : Int} {acc acc' : Acc} :
    accAccum s img row col acc = .next acc' ↔
      (inb img row col = true ∧ ∃ p, pixelAt s img row col = .next p ∧ acc' = acc.addPixel p) ∨
      (inb img row col = false ∧ acc' = acc) := by
  simp only [accAccum]
  split
  · rename_i h
    simp only [andThen_eq_next, h, Host.Outcome.next.injEq, true_and, Bool.true_eq_false,
      false_and, or_false]
    exact exists_congr fun p => and_congr_right fun _ => eq_comm
  · rename_i h
    simp only [Bool.not_eq_true] at h
    simp [h, eq_comm]

theorem Acc.zero_bounded : Acc.zero.Bounded := by
  constructor <;> simp [Acc.zero]

/-- One more pixel keeps each sum at most 255 times the count. -/
theorem Acc.addPixel_sums {acc : Acc} (p : Word)
    (h : acc.sumR ≤ 255 * acc.count ∧ acc.sumG ≤ 255 * acc.count ∧
      acc.sumB ≤ 255 * acc.count ∧ acc.sumA ≤ 255 * acc.count) :
    (acc.addPixel p).sumR ≤ 255 * (acc.addPixel p).count ∧
      (acc.addPixel p).sumG ≤ 255 * (acc.addPixel p).count ∧
      (acc.addPixel p).sumB ≤ 255 * (acc.addPixel p).count ∧
      (acc.addPixel p).sumA ≤ 255 * (acc.addPixel p).count := by
  have h1 := (redOf p).isLt
  have h2 := (greenOf p).isLt
  have h3 := (blueOf p).isLt
  have h4 := (alphaOf p).isLt
  simp only [Acc.addPixel]
  omega

/-- After any list of positions the sums are at most 255 times the count, and the count has grown
by at most the number of positions. -/
theorem accumAll_bounds {s : State} {img : Image} {l : List (Int × Int)} {acc acc' : Acc}
    (h : accumAll s img l acc = .next acc')
    (hb : acc.sumR ≤ 255 * acc.count ∧ acc.sumG ≤ 255 * acc.count ∧
      acc.sumB ≤ 255 * acc.count ∧ acc.sumA ≤ 255 * acc.count) :
    (acc'.sumR ≤ 255 * acc'.count ∧ acc'.sumG ≤ 255 * acc'.count ∧
      acc'.sumB ≤ 255 * acc'.count ∧ acc'.sumA ≤ 255 * acc'.count) ∧
      acc'.count ≤ acc.count + l.length := by
  induction l generalizing acc with
  | nil =>
    simp only [accumAll, Host.Outcome.next.injEq] at h
    subst h
    exact ⟨hb, by simp⟩
  | cons rc l ih =>
    obtain ⟨rr, cc⟩ := rc
    simp only [accumAll, andThen_eq_next] at h
    obtain ⟨acc1, h1, h2⟩ := h
    rcases accAccum_eq_next.1 h1 with ⟨-, p, -, rfl⟩ | ⟨-, rfl⟩
    · have := ih h2 (Acc.addPixel_sums p hb)
      refine ⟨this.1, this.2.trans ?_⟩
      simp only [Acc.addPixel, List.length_cons]
      omega
    · have := ih h2 hb
      refine ⟨this.1, this.2.trans ?_⟩
      simp only [List.length_cons]
      omega

/-- `ACC_FINAL` answers the four truncated means, each below 256, of a count that is not 0. -/
theorem accFinal_eq_next {acc : Acc} {q : Word} :
    accFinal acc = .next q ↔
      acc.count ≠ 0 ∧ ∃ r g b a : Channel,
        r.toNat = acc.sumR / acc.count ∧ g.toNat = acc.sumG / acc.count ∧
        b.toNat = acc.sumB / acc.count ∧ a.toNat = acc.sumA / acc.count ∧
        q = encodePx r g b a := by
  simp only [accFinal]
  split
  · simp_all
  · rename_i h0
    simp only [andThen_eq_next, toChannel_eq_next, Host.Outcome.next.injEq]
    constructor
    · rintro ⟨r, ⟨-, hr⟩, g, ⟨-, hg⟩, b, ⟨-, hb⟩, a, ⟨-, ha⟩, rfl⟩
      exact ⟨h0, r, g, b, a, hr, hg, hb, ha, rfl⟩
    · rintro ⟨-, r, g, b, a, hr, hg, hb, ha, rfl⟩
      exact ⟨r, ⟨hr ▸ r.isLt, hr⟩, g, ⟨hg ▸ g.isLt, hg⟩, b, ⟨hb ▸ b.isLt, hb⟩, a,
        ⟨ha ▸ a.isLt, ha⟩, rfl⟩

/-- The number of positions of the clamped window (rule R113). -/
theorem clampedWindow_length (img : Image) (d row col : Nat) :
    (clampedWindow img d row col).length =
      (min (img.height - 1) (row + d) - (row - d) + 1) *
        (min (img.width - 1) (col + d) - (col - d) + 1) := by
  simp [clampedWindow, List.length_flatMap]

/-- The clamped window of an output pixel inside the image has at most as many positions as the
image has pixels (rule R113). -/
theorem clampedWindow_length_le {img : Image} {d row col : Nat} (hr : row < img.height)
    (hc : col < img.width) :
    (clampedWindow img d row col).length ≤ img.width * img.height := by
  rw [clampedWindow_length, Nat.mul_comm img.width]
  exact Nat.mul_le_mul (by omega) (by omega)

end Sys2Proof.Machine
end

