-- ==== Sys2Proof/Laws/PerInstr.lean ====
section
/-!
SUPPORT. Statements made for every command, one lemma per constructor of `Instr`: the format of
its command word (30_encoding.md rules R63, R64).
-/

namespace Sys2Proof.Laws

open Sys2Proof

/-- A command is well formed and its command word keeps the field `ZERO` at zero. -/
def Format.Statement (i : Instr) : Prop :=
  i.wellFormed = true ∧ commandWordWellFormed (encode i) = true

theorem Format.squash : Format.Statement .squash := by unfold Format.Statement; decide

theorem Format.colorrot : Format.Statement .colorrot := by unfold Format.Statement; decide

theorem Format.blur : Format.Statement .blur := by unfold Format.Statement; decide

theorem Format.expand : Format.Statement .expand := by unfold Format.Statement; decide

end Sys2Proof.Laws
end

