-- ==== Sys2Proof/Laws/Step.lean ====
section
/-!
SUPPORT. What one step can do, once: an inversion lemma for the pixel step, the core step, each
host action and the step itself.
-/

namespace Sys2Proof.Machine

open Sys2Proof

/-! ## Offsets -/

/-- The register at an offset is the one whose offset it is (rule R14). -/
theorem Reg.ofOffset_eq_some {off : Nat} {r : Reg} : Reg.ofOffset off = some r ↔ off = r.offset := by
  constructor
  · intro h
    simp only [Reg.ofOffset] at h
    split_ifs at h <;> cases h <;> simp [Reg.offset, *]
  · rintro rfl
    cases r <;> rfl

/-- A reserved offset is the offset of no register (rule R71 (b)). -/
theorem Reg.ofOffset_eq_none {off : Nat} : Reg.ofOffset off = none ↔ ∀ r : Reg, off ≠ r.offset := by
  rw [Option.eq_none_iff_forall_not_mem]
  exact forall_congr' fun r => not_congr Reg.ofOffset_eq_some

/-- The reserved offsets as numbers: those past 0x28 and those that are no multiple of four
(rule R71 (b)). -/
theorem Reg.ofOffset_eq_none_iff_reserved {off : Nat} :
    Reg.ofOffset off = none ↔ 0x28 < off ∨ off % 4 ≠ 0 := by
  constructor
  · intro h
    by_contra hc
    have hoff : off = 0x00 ∨ off = 0x04 ∨ off = 0x08 ∨ off = 0x0C ∨ off = 0x10 ∨ off = 0x14 ∨
        off = 0x18 ∨ off = 0x1C ∨ off = 0x20 ∨ off = 0x24 ∨ off = 0x28 := by omega
    rcases hoff with rfl | rfl | rfl | rfl | rfl | rfl | rfl | rfl | rfl | rfl | rfl <;>
      simp [Reg.ofOffset] at h
  · intro h
    rw [Reg.ofOffset_eq_none]
    intro r
    cases r <;> simp only [Reg.offset] <;> omega

/-- The offsets of the decoder are those of the register map (rule R14). -/
theorem mem_registerMap {off : Nat} {r : Reg} : (off, r) ∈ registerMap ↔ off = r.offset := by
  cases r <;> simp [registerMap, Reg.offset]

/-! ## The core (rules R68, R69) -/

/-- A pixel step writes `OUT_cmd` at `db + k`, drops `k` from `PENDING`, leaves the `ACC` of the
computation, and changes nothing else. -/
theorem pixelStep_eq_next {k : Nat} {s t : State} :
    pixelStep k s = .next t ↔
      ∃ cmd v acc, s.oplatch = some cmd ∧ outIndex cmd s k = .next (v, acc) ∧
        s.db + k < s.memWords ∧
        t = ((s.withAcc acc).putWord (s.db + k) v).dropPending k := by
  simp only [pixelStep]
  split
  · simp_all
  · rename_i cmd hc
    simp only [andThen_eq_next, memWrite_eq_next, Host.Outcome.next.injEq, hc, Option.some.injEq]
    constructor
    · rintro ⟨⟨v, acc⟩, h1, s', ⟨h2, rfl⟩, rfl⟩
      exact ⟨cmd, v, acc, rfl, h1, by simpa using h2, rfl⟩
    · rintro ⟨_, v, acc, rfl, h1, h2, rfl⟩
      exact ⟨(v, acc), h1, _, ⟨by simpa using h2, rfl⟩, rfl⟩

/-- A step of the busy core is the completion step when nothing is pending, else a pixel step for a
pending index. -/
theorem coreStep_eq_next {n : Nat} {s t : State} (h : coreStep n s = .next t) :
    (s.pending = [] ∧ t = complete s) ∨
      ∃ k, k ∈ s.pending ∧ pickIndex s.pending n = some k ∧ pixelStep k s = .next t := by
  simp only [coreStep] at h
  split at h
  · rename_i k hk
    exact .inr ⟨k, pickIndex_mem hk, hk, h⟩
  · rename_i hk
    simp only [Host.Outcome.next.injEq] at h
    exact .inl ⟨pickIndex_eq_none.1 hk, h.symm⟩

/-! ## The host (rules R61, R73, R74) -/

/-- A command write that answers a state is a launch. -/
theorem commandWrite_eq_next {w : Word} {s t : State} :
    commandWrite w s = .next t ↔ ∃ i, decode w = .ok i ∧ exec i s = .next t := by
  simp only [commandWrite]
  split <;> simp_all

/-- A register write that answers a state did nothing (`STATUS`), or stored a register of an idle
core, or launched a command. -/
theorem regWrite_eq_next {off : Nat} {w : Word} {s t : State} (h : regWrite off w s = .next t) :
    (off = Reg.offset .status ∧ t = s) ∨
      (s.busy = false ∧ ∃ r, off = r.offset ∧ r ≠ .cmd ∧ t = setReg r w s) ∨
      (s.busy = false ∧ off = Reg.offset .cmd ∧
        ∃ i, decode w = .ok i ∧ exec i s = .next t) := by
  simp only [regWrite] at h
  split at h
  · simp_all
  · split at h
    · simp at h
    · rename_i hb
      simp only [Bool.not_eq_true] at hb
      split at h
      · simp at h
      · rename_i hr
        exact .inr (.inr ⟨hb, Reg.ofOffset_eq_some.1 hr, commandWrite_eq_next.1 h⟩)
      · rename_i r hc hr
        simp only [Host.Outcome.next.injEq] at h
        refine .inr (.inl ⟨hb, r, Reg.ofOffset_eq_some.1 hr, ?_, h.symm⟩)
        rintro rfl
        exact hc rfl

/-- A register read returns the register to the host and changes nothing else. -/
theorem regRead_eq_next {off : Nat} {s t : State} :
    regRead off s = .next t ↔ ∃ r, off = r.offset ∧ t = s.returnWord (getReg r s) := by
  simp only [regRead]
  split
  · rename_i h
    simp only [reduceCtorEq, false_iff, not_exists, not_and]
    intro r hr
    rw [Reg.ofOffset_eq_some.2 hr] at h
    simp at h
  · rename_i r h
    rw [Reg.ofOffset_eq_some] at h
    simp only [Host.Outcome.next.injEq]
    constructor
    · rintro rfl
      exact ⟨r, h, rfl⟩
    · rintro ⟨r', h', rfl⟩
      have : r = r' := by
        have h1 := Reg.ofOffset_eq_some.2 h
        rw [Reg.ofOffset_eq_some.2 h'] at h1
        exact (Option.some.inj h1).symm
      rw [this]

/-- Membership in an image's region (rule R43). -/
@[simp] theorem Image.inRegion_eq_true {img : Image} {a : Nat} :
    img.inRegion a = true ↔ img.base ≤ a ∧ a < img.limit := by simp [Image.inRegion]

/-- When a host write is forbidden (rules R53, R165, R167). -/
theorem inFlightRegion_eq_true {s : State} {a : Nat} :
    inFlightRegion s a = true ↔ s.busy = true ∧
      ((s.sb ≤ a ∧ a < s.sb + s.sw * s.sh) ∨ (s.db ≤ a ∧ a < s.db + s.dw * s.dh)) := by
  simp only [inFlightRegion, Bool.and_eq_true, Bool.or_eq_true, Image.inRegion_eq_true]
  rfl

/-- A host write that answers a state replaced one word, outside both regions of a command in
flight. -/
theorem hostMemWrite_eq_next {a : Nat} {v : Word} {s t : State} :
    hostMemWrite a v s = .next t ↔
      inFlightRegion s a = false ∧ a < s.memWords ∧ t = s.putWord a v := by
  simp only [hostMemWrite]
  split <;> simp_all [memWrite_eq_next]

/-- A host read returns a word to the host and changes nothing else. -/
theorem hostMemRead_eq_next {a : Nat} {s t : State} :
    hostMemRead a s = .next t ↔ a < s.memWords ∧ t = s.returnWord (hostWord s a) := by
  simp only [hostMemRead]
  split <;> simp_all [eq_comm]

/-- A host write is refused in the regions of a command in flight, and where no word exists. -/
theorem hostMemWrite_eq_refused {a : Nat} {v : Word} {s : State} {e : Refusal} :
    hostMemWrite a v s = .refused e ↔
      (inFlightRegion s a = true ∧ e = .hostTouchedBuffer) ∨
        (inFlightRegion s a = false ∧ s.memWords ≤ a ∧ e = .noSuchWord a) := by
  simp only [hostMemWrite]
  cases inFlightRegion s a
  · simp [memWrite_eq_refused]
  · simp [eq_comm (b := e)]

/-- A host read is refused only where no word exists. -/
theorem hostMemRead_eq_refused {a : Nat} {s : State} {e : Refusal} :
    hostMemRead a s = .refused e ↔ s.memWords ≤ a ∧ e = .noSuchWord a := by
  by_cases h : a < s.memWords
  · simp [hostMemRead, h, Nat.not_le.2 h]
  · simp [hostMemRead, h, Nat.not_lt.1 h, eq_comm]

/-- Bit 1 of the status word is `DONE` (rule R16). -/
@[simp] theorem statusWord_bit1 (s : State) : (statusWord s).getLsbD 1 = s.done := by
  simp only [statusWord]
  cases s.done <;> cases s.busy <;> decide

/-- `WAIT` reads `STATUS`; it changes nothing but the word read and the script. -/
theorem waitStep_eq (s : State) :
    waitStep s =
      { s with
        readData := statusWord s
        script := if s.done then s.script else .wait :: s.script } := by
  simp only [waitStep, statusWord_bit1]
  split <;> simp_all [State.returnWord]

/-- What one action of the outside world can do when it answers a state. -/
theorem doAction_eq_next {act : Action} {s t : State} (h : doAction act s = .next t) :
    (∃ w, act = .wr (Reg.offset .status) w ∧ t = s) ∨
    (∃ r w, act = .wr r.offset w ∧ r ≠ .cmd ∧ s.busy = false ∧ t = setReg r w s) ∨
    (∃ w i, act = .wr (Reg.offset .cmd) w ∧ decode w = .ok i ∧ s.busy = false ∧
      admits i s = true ∧ t = launch i (s.dw * s.dh) s) ∨
    (∃ r, act = .rd (Reg.offset r) ∧ t = s.returnWord (getReg r s)) ∨
    (∃ a v, act = .mw a v ∧ inFlightRegion s a = false ∧ a < s.memWords ∧ t = s.putWord a v) ∨
    (∃ a, act = .mr a ∧ a < s.memWords ∧ t = s.returnWord (hostWord s a)) ∨
    (act = .wait ∧ t = waitStep s) ∨
    (act = .rst ∧ t = applyReset s) := by
  cases act with
  | wr off w =>
    simp only [doAction] at h
    rcases regWrite_eq_next h with ⟨rfl, rfl⟩ | ⟨hb, r, rfl, hr, rfl⟩ | ⟨hb, rfl, i, hd, he⟩
    · exact .inl ⟨w, rfl, rfl⟩
    · exact .inr (.inl ⟨r, w, rfl, hr, hb, rfl⟩)
    · obtain ⟨-, ha, ht⟩ := exec_eq_next.1 he
      exact .inr (.inr (.inl ⟨w, i, rfl, hd, hb, ha, ht⟩))
  | rd off =>
    simp only [doAction] at h
    obtain ⟨r, rfl, rfl⟩ := regRead_eq_next.1 h
    exact .inr (.inr (.inr (.inl ⟨r, rfl, rfl⟩)))
  | partialAccess off => simp [doAction] at h
  | mw a v =>
    simp only [doAction] at h
    obtain ⟨h1, h2, rfl⟩ := hostMemWrite_eq_next.1 h
    exact .inr (.inr (.inr (.inr (.inl ⟨a, v, rfl, h1, h2, rfl⟩))))
  | mr a =>
    simp only [doAction] at h
    obtain ⟨h1, rfl⟩ := hostMemRead_eq_next.1 h
    exact .inr (.inr (.inr (.inr (.inr (.inl ⟨a, rfl, h1, rfl⟩)))))
  | wait =>
    simp only [doAction, Host.Outcome.next.injEq] at h
    exact .inr (.inr (.inr (.inr (.inr (.inr (.inl ⟨rfl, h.symm⟩))))))
  | rst =>
    simp only [doAction, Host.Outcome.next.injEq] at h
    exact .inr (.inr (.inr (.inr (.inr (.inr (.inr ⟨rfl, h.symm⟩))))))

/-- What the host's move can do: nothing, with no action left, or the head action. -/
theorem hostStep_eq_next {s t : State} (h : hostStep s = .next t) :
    (s.script = [] ∧ t = s) ∨
      ∃ act rest, s.script = act :: rest ∧ doAction act { s with script := rest } = .next t := by
  simp only [hostStep] at h
  split at h
  · simp_all
  · rename_i act rest hs
    exact .inr ⟨act, rest, hs, h⟩

/-! ## The step -/

/-- Who moves in a step (rules R50, R68): the host when the core is idle; while `BUSY = 1` the
agent the schedule names, whose choice is then used up. -/
theorem step_eq_next {s t : State} (h : step s = .next t) :
    (s.busy = false ∧ hostStep s = .next t) ∨
    (s.busy = true ∧ hostStep { s with schedule := s.schedule.tail } = .next t) ∨
    (s.busy = true ∧ ∃ n, coreStep n { s with schedule := s.schedule.tail } = .next t) := by
  simp only [step, agentStep] at h
  split at h
  · rename_i hb
    refine .inr ?_
    split at h
    · rename_i hs
      refine .inr ⟨hb, 0, ?_⟩
      convert h using 2
      rw [hs]
      cases s
      simp_all
    · rename_i n rest hs
      exact .inr ⟨hb, n, by simpa [hs] using h⟩
    · rename_i rest hs
      exact .inl ⟨hb, by simpa [hs] using h⟩
  · rename_i hb
    exact .inl ⟨by simpa using hb, h⟩

/-- An idle machine takes the host's next action. -/
theorem step_idle {s : State} (h : s.busy = false) : step s = hostStep s := by
  simp [step, agentStep, h]

/-- A busy machine whose schedule names the core (or names nobody) takes a core step. -/
theorem step_busy_core {s : State} {n : Nat} {rest : List Turn} (h : s.busy = true)
    (hs : s.schedule = .core n :: rest) : step s = coreStep n { s with schedule := rest } := by
  simp [step, agentStep, h, hs]

theorem step_busy_default {s : State} (h : s.busy = true) (hs : s.schedule = []) :
    step s = coreStep 0 s := by
  simp [step, agentStep, h, hs]

/-- A busy machine whose schedule names the host takes the host's next action. -/
theorem step_busy_host {s : State} {rest : List Turn} (h : s.busy = true)
    (hs : s.schedule = .host :: rest) : step s = hostStep { s with schedule := rest } := by
  simp [step, agentStep, h, hs]

/-- A step in which the host moves is its action. -/
theorem step_of_hostMoves {s : State} {act : Action} (h : HostMoves s act) :
    ∃ rest sc, step s = doAction act { s with script := rest, schedule := sc } := by
  obtain ⟨⟨rest, he⟩, hsc⟩ := h
  rcases Bool.eq_false_or_eq_true s.busy with hb | hb
  · obtain ⟨turns, ht⟩ := hsc hb
    exact ⟨rest, turns, by rw [step_busy_host hb ht]; simp only [hostStep, he]⟩
  · exact ⟨rest, s.schedule, by rw [step_idle hb]; simp only [hostStep, he]⟩

/-- A step in which the core takes an index is the pixel step for it. -/
theorem step_of_corePicks {s : State} {k : Nat} (h : CorePicks s k) :
    ∃ sc, step s = pixelStep k { s with schedule := sc } := by
  obtain ⟨hb, n, hk, ⟨hs, rfl⟩ | ⟨turns, hs⟩⟩ := h
  · exact ⟨s.schedule, by rw [step_busy_default hb hs]; simp [coreStep, hk]⟩
  · exact ⟨turns, by rw [step_busy_core hb hs]; simp [coreStep, hk]⟩

/-- The next step is an action of the host, or a pixel step, or it answers a state (an empty script,
the completion step). -/
theorem step_trichotomy (s : State) :
    (∃ act, HostMoves s act) ∨ (∃ k, CorePicks s k) ∨ ∃ t, step s = .next t := by
  have hcore : ∀ n sc, s.busy = true → step s = coreStep n { s with schedule := sc } →
      ((s.schedule = [] ∧ n = 0) ∨ ∃ turns, s.schedule = .core n :: turns) →
      (∃ k, CorePicks s k) ∨ ∃ t, step s = .next t := by
    intro n sc hb hs hn
    cases hk : pickIndex s.pending n with
    | none => exact .inr ⟨complete { s with schedule := sc }, by rw [hs]; simp [coreStep, hk]⟩
    | some k => exact .inl ⟨k, hb, n, hk, hn⟩
  rcases Bool.eq_false_or_eq_true s.busy with hb | hb
  · rcases hsc : s.schedule with - | ⟨_ | n, turns⟩
    · exact .inr (hcore 0 s.schedule hb (step_busy_default hb hsc) (.inl ⟨hsc, rfl⟩))
    · rcases hs : s.script with - | ⟨act, rest⟩
      · refine .inr (.inr ⟨{ s with schedule := turns }, ?_⟩)
        rw [step_busy_host hb hsc]
        simp [hostStep, hs]
      · exact .inl ⟨act, ⟨rest, hs⟩, fun _ => ⟨turns, hsc⟩⟩
    · exact .inr (hcore n turns hb (step_busy_core hb hsc) (.inr ⟨turns, hsc⟩))
  · rcases hs : s.script with - | ⟨act, rest⟩
    · exact .inr (.inr ⟨s, by rw [step_idle hb]; simp [hostStep, hs]⟩)
    · exact .inl ⟨act, ⟨rest, hs⟩, by simp [hb]⟩

/-- The first of several steps of a run. -/
theorem run_succ {n : Nat} {s t : State} (h : step s = .next t) :
    Host.Core.run Sys2Proof.core (n + 1) s = Host.Core.run Sys2Proof.core n t := by
  have h' : Sys2Proof.core.step s = .next t := h
  simp only [Host.Core.run]
  rw [h']

/-! ## Everything one step can do -/

/-- What a host action taken by a step can do, for the schedule `sc` the step leaves: nothing, an
idle machine's register write, a launch, a read, a memory write, or a reset. -/
theorem hostStep_cases {s t : State} {sc : List Turn} (hsc : s.busy = false → sc = s.schedule)
    (hs : hostStep { s with schedule := sc } = .next t) :
    t = { s with schedule := sc } ∨
    (∃ r w rest, s.busy = false ∧ s.script = .wr (Reg.offset r) w :: rest ∧ r ≠ .cmd ∧
      t = setReg r w { s with script := rest }) ∨
    (∃ w i rest, s.busy = false ∧ s.script = .wr 0 w :: rest ∧ decode w = .ok i ∧
      admits i s = true ∧ t = launch i (s.dw * s.dh) { s with script := rest }) ∨
    (∃ rest rd, t = { s with schedule := sc, script := rest, readData := rd }) ∨
    (∃ rest a v, s.script = .mw a v :: rest ∧ inFlightRegion s a = false ∧ a < s.memWords ∧
      t = State.putWord { s with schedule := sc, script := rest } a v) ∨
    (∃ rest, s.script = .rst :: rest ∧
      t = applyReset { s with schedule := sc, script := rest }) := by
  rcases hostStep_eq_next hs with ⟨-, rfl⟩ | ⟨act, rest, he, hs⟩
  · exact .inl rfl
  have he' : s.script = act :: rest := he
  rcases doAction_eq_next hs with ⟨w, -, rfl⟩ | ⟨r, w, rfl, hr, hb, rfl⟩ |
    ⟨w, i, rfl, hd, hb, ha, rfl⟩ | ⟨r, -, rfl⟩ | ⟨a, v, rfl, hf, ha, rfl⟩ | ⟨a, -, -, rfl⟩ |
    ⟨-, rfl⟩ | ⟨rfl, rfl⟩
  · exact .inr (.inr (.inr (.inl ⟨rest, s.readData, rfl⟩)))
  · obtain rfl := hsc hb
    exact .inr (.inl ⟨r, w, rest, hb, he', hr, rfl⟩)
  · obtain rfl := hsc hb
    have ha' : admits i s = true := by
      rw [← ha]
      cases i <;> rfl
    exact .inr (.inr (.inl ⟨w, i, rest, hb, he', hd, ha', rfl⟩))
  · exact .inr (.inr (.inr (.inl ⟨rest, _, rfl⟩)))
  · exact .inr (.inr (.inr (.inr (.inl ⟨rest, a, v, he', hf, ha, rfl⟩))))
  · exact .inr (.inr (.inr (.inl ⟨rest, _, rfl⟩)))
  · rw [waitStep_eq]
    exact .inr (.inr (.inr (.inl ⟨_, _, rfl⟩)))
  · exact .inr (.inr (.inr (.inr (.inr ⟨rest, he', rfl⟩))))

/-- The effects a step can have, one disjunct each: nothing, an idle machine's register write, a
launch, a read, a host memory write, a reset, the completion step, a pixel step. -/
theorem step_cases {s t : State} (hs : step s = .next t) :
    (∃ sc, t = { s with schedule := sc }) ∨
    (∃ r w rest, s.busy = false ∧ s.script = .wr (Reg.offset r) w :: rest ∧ r ≠ .cmd ∧
      t = setReg r w { s with script := rest }) ∨
    (∃ w i rest, s.busy = false ∧ s.script = .wr 0 w :: rest ∧ decode w = .ok i ∧
      admits i s = true ∧ t = launch i (s.dw * s.dh) { s with script := rest }) ∨
    (∃ sc rest rd, t = { s with schedule := sc, script := rest, readData := rd }) ∨
    (∃ sc rest a v, s.script = .mw a v :: rest ∧ inFlightRegion s a = false ∧ a < s.memWords ∧
      t = State.putWord { s with schedule := sc, script := rest } a v) ∨
    (∃ sc rest, s.script = .rst :: rest ∧
      t = applyReset { s with schedule := sc, script := rest }) ∨
    (s.busy = true ∧ s.pending = [] ∧ t = complete { s with schedule := s.schedule.tail }) ∨
    (s.busy = true ∧ ∃ k ∈ s.pending,
      pixelStep k { s with schedule := s.schedule.tail } = .next t) := by
  have hmove : (∃ sc, (s.busy = false → sc = s.schedule) ∧
        hostStep { s with schedule := sc } = .next t) ∨
      (s.busy = true ∧ ∃ n, coreStep n { s with schedule := s.schedule.tail } = .next t) := by
    rcases step_eq_next hs with ⟨-, hs⟩ | ⟨hb, hs⟩ | h
    · exact .inl ⟨s.schedule, fun _ => rfl, hs⟩
    · exact .inl ⟨_, by simp [hb], hs⟩
    · exact .inr h
  rcases hmove with ⟨sc, hsc, h⟩ | ⟨hb, n, h⟩
  · rcases hostStep_cases hsc h with h | h | h | ⟨rest, rd, h⟩ | ⟨rest, a, v, h⟩ | ⟨rest, h⟩
    · exact .inl ⟨sc, h⟩
    · exact .inr (.inl h)
    · exact .inr (.inr (.inl h))
    · exact .inr (.inr (.inr (.inl ⟨sc, rest, rd, h⟩)))
    · exact .inr (.inr (.inr (.inr (.inl ⟨sc, rest, a, v, h⟩))))
    · exact .inr (.inr (.inr (.inr (.inr (.inl ⟨sc, rest, h⟩)))))
  · rcases coreStep_eq_next h with ⟨hp, rfl⟩ | ⟨k, hk, -, h⟩
    · exact .inr (.inr (.inr (.inr (.inr (.inr (.inl ⟨hb, hp, rfl⟩))))))
    · exact .inr (.inr (.inr (.inr (.inr (.inr (.inr ⟨hb, k, hk, h⟩))))))

end Sys2Proof.Machine
end

