-- ==== Sys2Proof/Tests/Slice0.lean ====
section
/-!
SUPPORT. Tests: ill-formed terms refused, words written out and decoded, one step per command on
small states (expected values from spec/95_test_vectors.md), and for every statement with
hypotheses a concrete state that meets them.
-/

namespace Sys2Proof.Tests

open Sys2Proof Sys2Proof.Machine

/-! ## Well-formedness: what each check refuses -/

theorem test_wellFormed_accepts :
    (Action.wr 0x28 0xFFFF).wellFormed = true ∧ (Action.wr 0x00 3).wellFormed = true ∧
    (Action.rd 0x00).wellFormed = true ∧ (Action.mw 0xFFFFFFFF 0).wellFormed = true ∧
    (Action.mr 0).wellFormed = true ∧ Instr.wellFormed .expand = true := by decide

theorem test_wellFormed_refuses_wr_reserved : (Action.wr 0x2C 0).wellFormed = false := by decide
theorem test_wellFormed_refuses_wr_unaligned : (Action.wr 0x02 0).wellFormed = false := by decide
theorem test_wellFormed_refuses_wr_command : (Action.wr 0x00 4).wellFormed = false := by decide
theorem test_wellFormed_refuses_rd_reserved : (Action.rd 0x3C).wellFormed = false := by decide
theorem test_wellFormed_refuses_rd_unaligned : (Action.rd 0x02).wellFormed = false := by decide
theorem test_wellFormed_refuses_partial : (Action.partialAccess 0x08).wellFormed = false := by
  decide
theorem test_wellFormed_refuses_mw : (Action.mw 0x100000000 0).wellFormed = false := by decide
theorem test_wellFormed_refuses_mr : (Action.mr 0x100000000).wellFormed = false := by decide

/-! ## Decoding: words written out bit by bit from rules R63 and R64 -/

theorem test_decode_squash :
    decode 0b00000000000000000000000000000000#32 = .ok .squash := rfl
theorem test_decode_colorrot :
    decode 0b00000000000000000000000000000001#32 = .ok .colorrot := rfl
theorem test_decode_blur :
    decode 0b00000000000000000000000000000010#32 = .ok .blur := rfl
theorem test_decode_expand :
    decode 0b00000000000000000000000000000011#32 = .ok .expand := rfl

/-- V-REG-9 and V-REG-10: every bit above bit 1 is decoded. -/
theorem test_decode_reserved :
    decode 0x00000004#32 = .error .reservedCommand ∧
    decode 0x80000001#32 = .error .reservedCommand ∧
    decode 0x00010002#32 = .error .reservedCommand ∧
    decode 0xFFFFFFFF#32 = .error .reservedCommand := ⟨rfl, rfl, rfl, rfl⟩

theorem test_decodeTableWord :
    decodeTableWord 32 0 = some .squash ∧ decodeTableWord 32 1 = some .colorrot ∧
    decodeTableWord 32 2 = some .blur ∧ decodeTableWord 32 3 = some .expand ∧
    decodeTableWord 32 4 = none ∧ decodeTableWord 8 0x103 = some .expand := by decide

/-! ## Small states -/

/-- A one-row source image of two pixels at 0, the destination at 0x10, 32 words of memory. -/
def demo (cmd : Instr) (p0 p1 : Word) : State :=
  { State.reset with
    memWords := 0x20
    srcWidth := 2, srcHeight := 1
    dstBase := 0x10
    dstWidth := match cmd with | .squash => 1 | .colorrot => 2 | .blur => 2 | .expand => 4
    dstHeight := match cmd with | .squash => 1 | .colorrot => 1 | .blur => 1 | .expand => 2
    xfac := 2, yfac := 1, blurDist := 1
    pmem := [(0, p0), (1, p1)]
    schedule := [.core 0] }

/-- The same state with the command in flight and every index pending. -/
def flying (cmd : Instr) (p0 p1 : Word) (schedule : List Turn) : State :=
  { launch cmd ((demo cmd p0 p1).dw * (demo cmd p0 p1).dh) (demo cmd p0 p1) with
    schedule := schedule }

/-- The idle state with a script. -/
def scripted (cmd : Instr) (script : List Action) : State :=
  { demo cmd 0x11223344 0x030405FE with script := script }

/-- A command in flight, the host next, with a script. -/
def busyScripted (cmd : Instr) (script : List Action) : State :=
  { flying cmd 0x11223344 0x030405FE [.host] with script := script }

/-- The word a step leaves at an address. -/
def wordAfter (r : Result State) (a : Nat) : Option Word :=
  match r with
  | .next t => t.pmem.read a
  | .fault _ => none
  | .refused _ => none

/-- `STATUS` after a step. -/
def statusAfter (r : Result State) : Option Word :=
  match r with
  | .next t => some (statusWord t)
  | .fault _ => none
  | .refused _ => none

/-! ## One step per command -/

/-- Rule R101: with factors 2 and 1 the sample is source column 0; and the second source pixel is
sampled with factor 1 (V-SQ-6, V-SQ-7 in small). -/
theorem test_squash_pixel :
    wordAfter (step (flying .squash 0xB0000000 0xB0000001 [.core 0])) 0x10 = some 0xB0000000 ∧
    wordAfter (step { flying .squash 0xB0000000 0xB0000001 [.core 1] with
      xfac := 1, dstWidth := 2, pending := [0, 1] }) 0x11 = some 0xB0000001 := by decide

/-- V-ROT-1 and V-ROT-5. -/
theorem test_colorrot_pixel :
    wordAfter (step (flying .colorrot 0x11223344 0xDEADBEEF [.core 0])) 0x10 = some 0x33112244 ∧
    wordAfter (step (flying .colorrot 0x11223344 0xDEADBEEF [.core 1])) 0x11 =
      some 0xBEDEADEF := by decide

/-- V-BLUR-6: colours averaged, alpha copied. -/
theorem test_blur_pixel :
    wordAfter (step (flying .blur 0xFFFFFF00 0x000000FF [.core 0])) 0x10 = some 0x7F7F7F00 ∧
    wordAfter (step (flying .blur 0xFFFFFF00 0x000000FF [.core 1])) 0x11 =
      some 0x7F7F7FFF := by decide

/-- V-EXP-3: the horizontal mean, alpha averaged; and the copy at the right edge, in the odd row. -/
theorem test_expand_pixel :
    wordAfter (step (flying .expand 0x10203040 0x30405061 [.core 1])) 0x11 = some 0x20304050 ∧
    wordAfter (step (flying .expand 0x10203040 0x30405061 [.core 7])) 0x17 =
      some 0x30405061 := by decide

/-- V-AVG4-6 and V-AVG4-8. -/
theorem test_avg4 :
    avg4 0x12345678 0x9ABCDEF0 0xFF00FF00 0x01020304 = 0x6B3C8D5B ∧
    avg4 0xFF0000FF 0x00FF00FF 0x0000FFFF 0xFFFFFFFF = 0x7F7F7FFF := by decide

/-- V-REG-19, V-REG-20: `STATUS` reads 1 after a launch. -/
theorem test_launch_status :
    statusAfter (step (scripted .expand [.wr 0 3])) = some 1 := by decide

/-- Rule R69, V-REG-19: `STATUS` reads 2 after the completion step. -/
theorem test_completion_status :
    statusAfter (step { flying .blur 0 0 [.core 0] with pending := [] }) = some 2 := by decide

/-- V-REG-11: from reset every command is refused by its preconditions. -/
theorem test_reset_refuses :
    step (State.reset.withFetchWord 32 1) = .refused .precondition := rfl

/-- V-REG-4: bits 31:16 of a dimension register are dropped. -/
theorem test_width_register :
    (setReg .srcWidth 0x00012345 State.reset).srcWidth = 0x2345 ∧
    getReg .srcWidth (setReg .srcWidth 0x00012345 State.reset) = 0x00002345 := by decide

/-- V-IDX-4, V-IDX-11: a column past the row's end is out of bounds. -/
theorem test_pixelAt_no_wrap :
    pixelAt (demo .blur 1 2) { base := 0, width := 1, height := 2 } 0 1 =
      .refused .pixelAtOutOfBounds := rfl

/-! ## The small states are legal -/

theorem demo_legal (cmd : Instr) (p0 p1 : Word) : Legal (demo cmd p0 p1) where
  memWords_pos := by show 1 ≤ 0x20; decide
  memWords_le := by show 0x20 ≤ 2 ^ 32; decide
  pmem_wf := by show [0, 1].Pairwise (· < ·); decide
  pmem_lt := by
    intro c hc
    simp only [demo, List.mem_cons, List.not_mem_nil, or_false] at hc
    rcases hc with rfl | rfl <;> simp [demo]
  not_busy_done := fun h => by cases h.1
  idle_pending := fun _ => rfl
  busy_admitted := fun h => by cases h
  pending_sorted := List.Pairwise.nil
  pending_lt := fun _ h => by cases h
  acc_bounded := Acc.zero_bounded

theorem demo_preconditions (cmd : Instr) (p0 p1 : Word) : Preconditions cmd (demo cmd p0 p1) := by
  show Preconditions cmd (demo cmd 0 0)
  cases cmd <;> exact ⟨by unfold CommonPreconditions; decide, by decide⟩

theorem demo_written (cmd : Instr) (p0 p1 : Word) : SourceWritten (demo cmd p0 p1) := by
  intro a _ h
  have h2 : a < 2 := h
  interval_cases a
  · exact ⟨p0, rfl⟩
  · exact ⟨p1, rfl⟩

theorem flying_legal (cmd : Instr) (p0 p1 : Word) (schedule : List Turn) :
    Legal (flying cmd p0 p1 schedule) where
  memWords_pos := by show 1 ≤ 0x20; decide
  memWords_le := by show 0x20 ≤ 2 ^ 32; decide
  pmem_wf := (demo_legal cmd p0 p1).pmem_wf
  pmem_lt := (demo_legal cmd p0 p1).pmem_lt
  not_busy_done := fun h => by cases h.2
  idle_pending := fun h => by cases h
  busy_admitted := fun _ => ⟨cmd, rfl, by cases cmd <;> rfl⟩
  pending_sorted := List.pairwise_lt_range
  pending_lt := fun _ h => List.mem_range.1 h
  acc_bounded := Acc.zero_bounded

theorem flying_written (cmd : Instr) (p0 p1 : Word) (schedule : List Turn) :
    SourceWritten (flying cmd p0 p1 schedule) := demo_written cmd p0 p1

/-- A script does not make a state illegal. -/
theorem legal_withScript {s : State} (h : Legal s) (script : List Action) :
    Legal { s with script := script } :=
  { memWords_pos := h.memWords_pos, memWords_le := h.memWords_le, pmem_wf := h.pmem_wf
    pmem_lt := h.pmem_lt, not_busy_done := h.not_busy_done, idle_pending := h.idle_pending
    busy_admitted := by
      intro hb
      obtain ⟨cmd, h1, h2⟩ := h.busy_admitted hb
      exact ⟨cmd, h1, by rw [← h2]; cases cmd <;> rfl⟩
    pending_sorted := h.pending_sorted, pending_lt := h.pending_lt, acc_bounded := h.acc_bounded }

theorem flying_inFlight (cmd : Instr) (p0 p1 : Word) (schedule : List Turn) :
    InFlight cmd (demo cmd p0 p1) (flying cmd p0 p1 schedule) where
  busy := rfl
  done := rfl
  latch := rfl
  operands := ⟨rfl, rfl, rfl, rfl, rfl, rfl, rfl, rfl, rfl⟩
  memWords := rfl
  source := fun _ _ _ => rfl
  waiting := fun _ _ => rfl
  written := fun _ hk hn => absurd (List.mem_range.2 hk) hn

/-- `SQUASH` in flight with its one destination word written. -/
def finished : State :=
  { flying .squash 7 8 [.core 0] with pending := [], pmem := [(0, 7), (1, 8), (0x10, 7)] }

theorem finished_legal : Legal finished where
  memWords_pos := by decide
  memWords_le := by decide
  pmem_wf := by decide
  pmem_lt := by decide
  not_busy_done := by decide
  idle_pending := fun _ => rfl
  busy_admitted := fun _ => ⟨.squash, rfl, rfl⟩
  pending_sorted := List.Pairwise.nil
  pending_lt := fun _ h => by cases h
  acc_bounded := Acc.zero_bounded

theorem finished_inFlight : InFlight .squash (demo .squash 7 8) finished where
  busy := rfl
  done := rfl
  latch := rfl
  operands := ⟨rfl, rfl, rfl, rfl, rfl, rfl, rfl, rfl, rfl⟩
  memWords := rfl
  source := by
    intro a _ h
    have h2 : a < 2 := h
    interval_cases a <;> rfl
  waiting := fun _ h => by cases h
  written := by
    intro k hk _
    have h1 : k < 1 := hk
    obtain rfl : k = 0 := by omega
    exact ⟨7, Acc.zero, rfl, rfl⟩

/-! ## Witnesses: the hypotheses of each statement are met -/

theorem witness_decodeAndEncodeAgree :
    Instr.wellFormed .squash = true ∧ Instr.wellFormed .expand = true ∧
      decode 0 = .ok .squash ∧ decode 3 = .ok .expand := ⟨rfl, rfl, rfl, rfl⟩

theorem witness_stepRunsDecodedCommand :
    (scripted .blur [.wr 0x00 2, .wait]).busy = false ∧
      (scripted .blur [.wr 0x00 2, .wait]).script = .wr 0x00 2 :: [.wait] ∧
      decode 2 = .ok .blur := ⟨rfl, rfl, rfl⟩

theorem witness_fetchWordIsRunNext :
    (demo .expand 1 2).busy = false ∧ 3 < 2 ^ 32 ∧ decodeTableWord 32 3 = some .expand := by decide

theorem witness_reservedCommandIsRefused :
    (scripted .blur [.wr 0x00 4]).busy = false ∧
      (scripted .blur [.wr 0x00 4]).script = .wr 0x00 4 :: [] ∧
      (4 : Word).extractLsb 31 2 ≠ 0 ∧ (0xFFFFFFFF : Word).extractLsb 31 2 ≠ 0 := by decide

/-- The hypotheses of both clauses of a launch statement. -/
def LaunchHypotheses (cmd : Instr) : Prop :=
  (demo cmd 1 2).busy = false ∧ Preconditions cmd (demo cmd 1 2) ∧
    ¬ Preconditions cmd State.reset

theorem launchHypotheses (cmd : Instr) : LaunchHypotheses cmd :=
  ⟨rfl, demo_preconditions cmd 1 2, fun h => absurd h.1.1 (by decide)⟩

theorem witness_squashLaunches : LaunchHypotheses .squash := launchHypotheses .squash
theorem witness_colorrotLaunches : LaunchHypotheses .colorrot := launchHypotheses .colorrot
theorem witness_blurLaunches : LaunchHypotheses .blur := launchHypotheses .blur
theorem witness_expandLaunches : LaunchHypotheses .expand := launchHypotheses .expand

theorem witness_launchChangesOnlyProgressState :
    ∃ t, exec .expand (demo .expand 1 2) = .next t := ⟨_, rfl⟩

theorem witness_anyPendingIndexMayBeNext :
    (flying .expand 1 2 []).busy = true ∧ 0 ∈ (flying .expand 1 2 []).pending ∧
      7 ∈ (flying .expand 1 2 []).pending := by decide

/-- The hypotheses shared by the statements about a core step, at the first pending index. -/
def PixelStepHypotheses (cmd : Instr) (s : State) : Prop :=
  Legal s ∧ s.busy = true ∧ s.oplatch = some cmd ∧ s.schedule = .core 0 :: [.host] ∧
    pickIndex s.pending 0 = some 0 ∧ SourceWritten s

theorem pixelStepHypotheses (cmd : Instr) (p0 p1 : Word) :
    PixelStepHypotheses cmd (flying cmd p0 p1 [.core 0, .host]) :=
  ⟨flying_legal .., rfl, rfl, rfl, by cases cmd <;> rfl, flying_written _ _ _ _⟩

theorem witness_squashPixelStep :
    let s := flying .squash 0x11223344 0x030405FE [.core 0, .host]
    PixelStepHypotheses .squash s ∧
      s.pmem.read (s.sb + (0 / s.dw * s.yf) * s.sw + 0 % s.dw * s.xf) = some 0x11223344 :=
  ⟨pixelStepHypotheses .., rfl⟩

theorem witness_colorrotPixelStep :
    let s := flying .colorrot 0x11223344 0x030405FE [.core 0, .host]
    PixelStepHypotheses .colorrot s ∧ s.pmem.read (s.sb + 0) = some 0x11223344 :=
  ⟨pixelStepHypotheses .., rfl⟩

/-- A command in flight with one source word written and distance 0. -/
def partly (cmd : Instr) (a : Nat) : State :=
  { flying cmd 7 8 [.core 0, .host] with blurDist := 0, pmem := [(a, 7)] }

theorem partly_legal (cmd : Instr) {a : Nat} (ha : a < 0x20) : Legal (partly cmd a) where
  memWords_pos := (flying_legal cmd 7 8 []).memWords_pos
  memWords_le := (flying_legal cmd 7 8 []).memWords_le
  pmem_wf := by simp [partly, PMem.wf]
  pmem_lt := by
    intro c hc
    simp only [partly, List.mem_cons, List.not_mem_nil, or_false] at hc
    rw [hc]
    exact ha
  not_busy_done := fun h => by cases h.2
  idle_pending := fun h => by cases h
  busy_admitted := fun _ => ⟨cmd, rfl, by cases cmd <;> rfl⟩
  pending_sorted := List.pairwise_lt_range
  pending_lt := fun _ h => List.mem_range.1 h
  acc_bounded := Acc.zero_bounded

/-- The output pixel of index 0 uses the source pixel at the origin and no other. -/
theorem partly_reads (cmd : Instr) : ∀ a ∈ [0, 1],
    sourceReads cmd (partly cmd a) (0 / (partly cmd a).dw) (0 % (partly cmd a).dw) = [(0, 0)] := by
  cases cmd <;> decide

theorem partly_readsWritten (cmd : Instr) : ReadsWritten cmd (partly cmd 0) 0 := by
  intro rc h
  rw [partly_reads cmd 0 (by decide)] at h
  rw [List.mem_singleton.1 h]
  cases cmd <;> exact ⟨7, rfl⟩

theorem partly_not_readsWritten (cmd : Instr) : ¬ ReadsWritten cmd (partly cmd 1) 0 := by
  intro h
  obtain ⟨p, hp⟩ := h (0, 0) (by rw [partly_reads cmd 1 (by decide)]; exact List.mem_singleton.2 rfl)
  cases cmd <;> cases hp

/-- What the statements about a pixel step ask for, with the words of the step's own pixel written
and the other source word not. -/
def PartlyHypotheses (cmd : Instr) (s : State) : Prop :=
  Legal s ∧ s.busy = true ∧ s.oplatch = some cmd ∧ s.schedule = .core 0 :: [.host] ∧
    pickIndex s.pending 0 = some 0 ∧ ReadsWritten cmd s 0 ∧ ¬ SourceWritten s

theorem partlyHypotheses (cmd : Instr) : PartlyHypotheses cmd (partly cmd 0) := by
  refine ⟨partly_legal cmd (by decide), rfl, rfl, rfl, by cases cmd <;> rfl,
    partly_readsWritten cmd, fun h => ?_⟩
  obtain ⟨p, hp⟩ := h 1 (Nat.zero_le 1) (show 1 < 2 by decide)
  cases hp

theorem witness_blurPixelStep : PartlyHypotheses .blur (partly .blur 0) := partlyHypotheses .blur

theorem witness_expandPixelStep : PartlyHypotheses .expand (partly .expand 0) :=
  partlyHypotheses .expand

theorem witness_completionStep :
    finished.busy = true ∧ finished.pending = [] ∧ finished.schedule = .core 0 :: [] := by decide

/-- In each command, with a source word left unwritten. -/
theorem witness_coreStepCannotFail (cmd : Instr) :
    PartlyHypotheses cmd (partly cmd 0) ∧
      ∀ cmd' k, (partly cmd 0).oplatch = some cmd' → pickIndex (partly cmd 0).pending 0 = some k →
        ReadsWritten cmd' (partly cmd 0) k := by
  refine ⟨partlyHypotheses cmd, fun cmd' k h hk => ?_⟩
  cases h
  obtain rfl : 0 = k := Option.some.inj ((partlyHypotheses cmd).2.2.2.2.1.symm.trans hk)
  exact partly_readsWritten cmd

theorem witness_coreStepStopsOnlyOnUnwrittenSource :
    PixelStepHypotheses .squash (flying .squash 1 2 [.core 0, .host]) :=
  pixelStepHypotheses ..

/-- In each command. -/
theorem witness_pixelStepOfUnwrittenWordIsRefused (cmd : Instr) :
    let s := partly cmd 1
    Legal s ∧ s.busy = true ∧ s.oplatch = some cmd ∧ s.schedule = .core 0 :: [.host] ∧
      pickIndex s.pending 0 = some 0 ∧ ¬ ReadsWritten cmd s 0 :=
  ⟨partly_legal cmd (by decide), rfl, rfl, rfl, by cases cmd <;> rfl, partly_not_readsWritten cmd⟩

theorem witness_rotationHasOrderThree :
    redOf 0x7F7F7F12 = greenOf 0x7F7F7F12 ∧ greenOf 0x7F7F7F12 = blueOf 0x7F7F7F12 ∧
      rot (rot 0x7F7F7F12) = 0x7F7F7F12 := by decide

theorem witness_pixelAtReadsOnlyInBounds :
    ((0 : Int) ≤ 0 ∧ (0 : Int) < 1 ∧ (0 : Int) ≤ 1 ∧ (1 : Int) < 2) ∧
    ¬ ((0 : Int) ≤ -1 ∧ (-1 : Int) < 1 ∧ (0 : Int) ≤ 0 ∧ (0 : Int) < 2) ∧
    ¬ ((0 : Int) ≤ 0 ∧ (0 : Int) < 1 ∧ (0 : Int) ≤ 2 ∧ (2 : Int) < 2) := by decide

theorem witness_rowAndColumnInvertTheIndex :
    1 ≤ 1 ∧ 0 < 1 ∧ (0 : Nat) < 1 * 1 ∧ (2 : Nat) < 3 ∧ 5 < 3 * 2 := by decide

/-- The first clause at the last pixel of the image, the second one column further. -/
theorem witness_accumulateAddsInBoundsPixels :
    let s := demo .blur 1 2
    let img := srcImage s
    (0 < img.height ∧ 1 < img.width ∧ img.addr 0 1 < s.memWords ∧
      s.pmem.read (img.addr 0 1) = some 2) ∧
    ¬ ((0 : Int) ≤ 0 ∧ (0 : Int) < img.height ∧ (0 : Int) ≤ 2 ∧ (2 : Int) < img.width) ∧
    accumAll s img [(0, 0), (0, 1)] Acc.zero =
      .next ((Acc.zero.addPixel 1).addPixel 2) := ⟨by decide, by decide, rfl⟩

/-- The first clause at its largest sums, the last at the accumulator's reset value. -/
theorem witness_accFinalIsTruncatedMean :
    (let acc : Acc := { sumR := 255, sumG := 255, sumB := 0, sumA := 255, count := 1 }
     1 ≤ acc.count ∧ acc.sumR ≤ 255 * acc.count ∧ acc.sumG ≤ 255 * acc.count ∧
      acc.sumB ≤ 255 * acc.count ∧ acc.sumA ≤ 255 * acc.count) ∧
    Acc.zero.count = 0 := by decide

theorem witness_blurDistanceZeroIsCopy :
    let s := { demo .blur 1 2 with blurDist := 0 }
    s.blurDist = 0 ∧ 0 < s.sh ∧ 1 < s.sw ∧ s.sb + 0 * s.sw + 1 < s.memWords ∧
      s.pmem.read (s.sb + 0 * s.sw + 1) = some 2 := by decide

/-- At the smallest distance that reaches over the whole image, and V-BLUR-6's values. -/
theorem witness_largeDistanceBlurIsUniform :
    let s := demo .blur 0xFFFFFF00 0x000000FF
    let acc : Acc := { sumR := 255, sumG := 255, sumB := 255, sumA := 255, count := 2 }
    (s.sw ≤ s.dist + 1 ∧ s.sh ≤ s.dist + 1 ∧ 0 < s.sh ∧ 0 < s.sw ∧ 1 < s.sw) ∧
      outBlur s 0 0 = .next (0x7F7F7F00, acc) ∧ outBlur s 0 1 = .next (0x7F7F7FFF, acc) :=
  ⟨by decide, rfl, rfl⟩

/-- The destination of V-EXP-3 as the source of a `SQUASH` by 2 and 2. -/
def expanded : State :=
  { demo .expand 0x10203040 0x30405061 with
    srcBase := 0x10, srcWidth := 4, srcHeight := 2, xfac := 2, yfac := 2
    pmem := [(0x10, 0x10203040), (0x11, 0x20304050), (0x12, 0x30405061), (0x13, 0x30405061),
      (0x14, 0x10203040), (0x15, 0x20304050), (0x16, 0x30405061), (0x17, 0x30405061)] }

theorem witness_squashUndoesExpand :
    let s := demo .expand 0x10203040 0x30405061
    Preconditions .expand s ∧ SourceWritten s ∧
    (∀ k, k < s.dw * s.dh →
      ∃ v acc, outIndex .expand s k = .next (v, acc) ∧
        expanded.pmem.read (s.db + k) = some v) ∧
    expanded.srcBase = s.dstBase ∧ expanded.srcWidth = s.dstWidth ∧
    expanded.srcHeight = s.dstHeight ∧ expanded.xfac = 2 ∧ expanded.yfac = 2 ∧
    expanded.memWords = s.memWords ∧ 0 < s.sh ∧ 1 < s.sw := by
  refine ⟨demo_preconditions .., demo_written _ _ _, ?_, rfl, rfl, rfl, rfl, rfl, rfl, by decide,
    by decide⟩
  intro k hk
  have h8 : k < 8 := hk
  interval_cases k <;> exact ⟨_, _, rfl, rfl⟩

/-- The hypotheses shared by the whole-command statements; the schedule names one index and then
nobody. -/
def WholeHypotheses (cmd : Instr) : Prop :=
  let s := demo cmd 0x11223344 0x030405FE
  Legal s ∧ s.busy = false ∧ Preconditions cmd s ∧ SourceWritten s ∧
    s.schedule = [0].map Turn.core

theorem wholeHypotheses (cmd : Instr) : WholeHypotheses cmd :=
  ⟨demo_legal .., rfl, demo_preconditions .., demo_written _ _ _, rfl⟩

theorem witness_squashWholeCommand : WholeHypotheses .squash := wholeHypotheses .squash
theorem witness_colorrotWholeCommand : WholeHypotheses .colorrot := wholeHypotheses .colorrot
theorem witness_blurWholeCommand : WholeHypotheses .blur := wholeHypotheses .blur
theorem witness_expandWholeCommand : WholeHypotheses .expand := wholeHypotheses .expand
theorem witness_pixelStepsRefineWholeCommand : WholeHypotheses .expand := wholeHypotheses .expand

theorem witness_stepKeepsLegality :
    Legal (flying .blur 1 2 [.core 1]) ∧ ∃ t, step (flying .blur 1 2 [.core 1]) = .next t :=
  ⟨flying_legal .., _, rfl⟩

theorem witness_launchPutsInFlight : ∃ t, exec .blur (demo .blur 1 2) = .next t := ⟨_, rfl⟩

/-- A pixel step, the completion step and a reset, each of a command in flight. -/
theorem witness_inFlightUntilCompletionOrReset :
    (Legal (flying .blur 1 2 [.core 1]) ∧
      InFlight .blur (demo .blur 1 2) (flying .blur 1 2 [.core 1]) ∧
      ∃ t, step (flying .blur 1 2 [.core 1]) = .next t) ∧
    (Legal finished ∧ InFlight .squash (demo .squash 7 8) finished ∧
      ∃ t, step finished = .next t) ∧
    (Legal (busyScripted .blur [.rst]) ∧ ∃ t, step (busyScripted .blur [.rst]) = .next t) :=
  ⟨⟨flying_legal .., flying_inFlight .., _, rfl⟩, ⟨finished_legal, finished_inFlight, _, rfl⟩,
    legal_withScript (flying_legal ..) _, _, rfl⟩

/-- The core step of `finished`; and a `SQUASH` launched, run for its one pixel step, then the
completion step. -/
theorem witness_completedCommandHasWrittenItsDestination :
    (Legal finished ∧ InFlight .squash (demo .squash 7 8) finished ∧ finished.pending = [] ∧
      finished.schedule = .core 0 :: [] ∧ 0 < (demo .squash 7 8).dw * (demo .squash 7 8).dh) ∧
    Legal (demo .squash 7 8) ∧
    ∃ u s t, exec .squash (demo .squash 7 8) = .next u ∧
      Host.Core.run Sys2Proof.core 1 u = .next s ∧
      (∀ (j : Nat) (x : State), j ≤ 1 → Host.Core.run Sys2Proof.core j u = .next x →
        x.busy = true) ∧
      step s = .next t ∧ t.done = true := by
  refine ⟨⟨finished_legal, finished_inFlight, rfl, rfl, by decide⟩, demo_legal ..,
    _, _, _, rfl, rfl, fun j x hj hx => ?_, rfl, rfl⟩
  interval_cases j <;> cases hx <;> rfl

/-- `DONE` set by completion, cleared by a launch, cleared by a reset. -/
theorem witness_doneChangesOnlyByCompletionLaunchReset :
    (∃ t, step finished = .next t ∧ finished.done = false ∧ t.done = true) ∧
    (∃ t, step { scripted .blur [.wr 0x00 2] with done := true } = .next t ∧ t.done = false) ∧
    (∃ t, step { scripted .blur [.rst] with done := true } = .next t ∧ t.done = false) :=
  ⟨⟨_, rfl, rfl, rfl⟩, ⟨_, rfl, rfl⟩, ⟨_, rfl, rfl⟩⟩

/-- A pixel step, a register write, a reset. -/
theorem witness_operandRegistersChangeOnlyByHost :
    (∃ t, step (flying .blur 1 2 [.core 1]) = .next t ∧ t.blurDist = 1) ∧
    (∃ t, step (scripted .blur [.wr 0x28 5]) = .next t ∧ t.blurDist = 5) ∧
    (∃ t, step (scripted .blur [.rst]) = .next t ∧ t.blurDist = 0) :=
  ⟨⟨_, rfl, rfl⟩, ⟨_, rfl, rfl⟩, ⟨_, rfl, rfl⟩⟩

/-- A pixel step and a host write. -/
theorem witness_memoryChangesOnlyByPixelStepOrHostWrite :
    (∃ t, step (flying .blur 1 2 [.core 1]) = .next t ∧
      t.pmem.read 0x11 ≠ (flying .blur 1 2 [.core 1]).pmem.read 0x11) ∧
    (∃ t, step (busyScripted .blur [.mw 0x1F 9]) = .next t ∧
      t.pmem.read 0x1F ≠ (busyScripted .blur [.mw 0x1F 9]).pmem.read 0x1F) :=
  ⟨⟨_, rfl, by decide⟩, ⟨_, rfl, by decide⟩⟩

theorem witness_accChangesOnlyInBlur :
    (∃ t, step (flying .blur 1 2 [.core 1]) = .next t ∧
      t.acc ≠ (flying .blur 1 2 [.core 1]).acc) ∧
    (∃ t, step { scripted .blur [.rst] with acc := Acc.zero.addPixel 5 } = .next t ∧
      t.acc ≠ Acc.zero.addPixel 5) :=
  ⟨⟨_, rfl, by decide⟩, ⟨_, rfl, by decide⟩⟩

/-- A legal state that meets a refusal's condition, and its step. -/
def RefusalMet (s : State) (e : Refusal) : Prop :=
  Legal s ∧ RefusalCondition s e ∧ step s = .refused e

/-- Each condition; a host access at the first word that does not exist, idle and busy. -/
theorem witness_stepIsRefusedExactlyOnTheListedConditions :
    RefusalMet (scripted .blur [.wr 0x00 0]) .precondition ∧
    RefusalMet (scripted .blur [.wr 0x00 4]) .reservedCommand ∧
    RefusalMet (busyScripted .blur [.rd 0x2C]) .reservedOffset ∧
    RefusalMet (busyScripted .blur [.wr 0x00 1]) .writeWhileBusy ∧
    RefusalMet (busyScripted .blur [.mw 0x11 1]) .hostTouchedBuffer ∧
    RefusalMet (partly .blur 1) .unwrittenSource ∧
    RefusalMet (scripted .blur [.mr 0x20]) (.noSuchWord 0x20) ∧
    RefusalMet (busyScripted .blur [.mw 0x20 1]) (.noSuchWord 0x20) := by
  have idle : ∀ act, Legal (scripted .blur [act]) := fun act => legal_withScript (demo_legal ..) _
  have busy : ∀ act, Legal (busyScripted .blur [act]) :=
    fun act => legal_withScript (flying_legal ..) _
  have idleMoves : ∀ act, HostMoves (scripted .blur [act]) act :=
    fun act => ⟨⟨[], rfl⟩, fun h => by cases h⟩
  have busyMoves : ∀ act, HostMoves (busyScripted .blur [act]) act :=
    fun act => ⟨⟨[], rfl⟩, fun _ => ⟨[], rfl⟩⟩
  refine ⟨⟨idle _, ⟨rfl, 0, .squash, idleMoves _, rfl, fun h => ?_⟩, rfl⟩,
    ⟨idle _, ⟨rfl, 4, idleMoves _, by decide⟩, rfl⟩,
    ⟨busy _, .inr ⟨0x2C, by decide, .inl (busyMoves _)⟩, rfl⟩,
    ⟨busy _, ⟨rfl, 0x00, 1, busyMoves _, by decide⟩, rfl⟩,
    ⟨busy _, ⟨rfl, 0x11, 1, busyMoves _, by decide⟩, rfl⟩,
    ⟨partly_legal .blur (by decide), ⟨.blur, 0, ⟨rfl, 0, rfl, .inr ⟨_, rfl⟩⟩, rfl,
      partly_not_readsWritten .blur⟩, rfl⟩,
    ⟨idle _, ⟨by decide, .inl (idleMoves _)⟩, rfl⟩,
    ⟨busy _, ⟨by decide, .inr ⟨1, busyMoves _⟩⟩, rfl⟩⟩
  exact absurd h.2.2.2.1 (by decide)

theorem witness_idleMachineKeepsItsState :
    (demo .blur 1 2).busy = false ∧ (demo .blur 1 2).script = [] := by decide

/-- The first and the last operand register. -/
theorem witness_registerWriteStoresItsField :
    (scripted .blur [.wr 0x08 5]).busy = false ∧
      ((0x08, .srcBase) ∈ registerMap ∧ Reg.srcBase ≠ .cmd ∧ Reg.srcBase ≠ .status ∧
        (scripted .blur [.wr 0x08 5]).script = .wr 0x08 5 :: []) ∧
      ((0x28, .blurDist) ∈ registerMap ∧ Reg.blurDist ≠ .cmd ∧ Reg.blurDist ≠ .status ∧
        (scripted .blur [.wr 0x28 5]).script = .wr 0x28 5 :: []) := by decide

/-- The first register of an idle core and the last of a busy one. -/
theorem witness_registerReadReturnsItsValue :
    ((scripted .blur [.rd 0x00]).busy = false ∧ (0x00, .cmd) ∈ registerMap ∧
      (scripted .blur [.rd 0x00]).script = .rd 0x00 :: []) ∧
    (busyScripted .blur [.rd 0x28]).busy = true ∧ (0x28, .blurDist) ∈ registerMap ∧
      (busyScripted .blur [.rd 0x28]).schedule = .host :: [] ∧
      (busyScripted .blur [.rd 0x28]).script = .rd 0x28 :: [] := by decide

theorem witness_statusWriteIsIgnored :
    (scripted .blur [.wr 0x04 3]).busy = false ∧
      (scripted .blur [.wr 0x04 3]).script = .wr 0x04 3 :: [] ∧
    (busyScripted .blur [.wr 0x04 3]).busy = true ∧
      (busyScripted .blur [.wr 0x04 3]).schedule = .host :: [] ∧
      (busyScripted .blur [.wr 0x04 3]).script = .wr 0x04 3 :: [] := by decide

theorem witness_writeWhileBusyIsRefused :
    (busyScripted .blur [.wr 0x00 1]).busy = true ∧
      (busyScripted .blur [.wr 0x00 1]).schedule = .host :: [] ∧
      (busyScripted .blur [.wr 0x00 1]).script = .wr 0x00 1 :: [] ∧ 0x00 ≠ 0x04 ∧
      (busyScripted .blur [.wr 0x2C 1]).script = .wr 0x2C 1 :: [] ∧ 0x2C ≠ 0x04 := by decide

/-- Idle, at the first offset past the map and at an unaligned one; and the same while busy. -/
theorem witness_reservedOffsetIsRefused :
    (scripted .blur [.rd 0x2C]).busy = false ∧ 0x28 < 0x2C ∧ 0x02 % 4 ≠ 0 ∧
      (scripted .blur [.rd 0x2C]).script = .rd 0x2C :: [] ∧
      (scripted .blur [.wr 0x02 1]).script = .wr 0x02 1 :: [] ∧
      (scripted .blur [.partialAccess 0x08]).script = .partialAccess 0x08 :: [] ∧
    (busyScripted .blur [.rd 0x29]).busy = true ∧ 0x28 < 0x29 ∧
      (busyScripted .blur [.rd 0x29]).schedule = .host :: [] ∧
      (busyScripted .blur [.rd 0x29]).script = .rd 0x29 :: [] ∧
      (busyScripted .blur [.partialAccess 0x08]).script = .partialAccess 0x08 :: [] := by decide

/-- The first and the last word of the memory, the last one never written; a busy read of the source
and of the destination region; and the first word that does not exist. -/
theorem witness_hostMemoryAccess :
    ((scripted .blur [.mw 0x1F 1]).busy = false ∧ 0x1F < (scripted .blur [.mw 0x1F 1]).memWords ∧
      (scripted .blur [.mw 0x1F 1]).script = .mw 0x1F 1 :: []) ∧
    ((scripted .blur [.mr 0]).script = .mr 0 :: [] ∧
      (scripted .blur [.mr 0]).pmem.read 0 = some 0x11223344) ∧
    (∀ a ∈ [0, 0x10, 0x1F], (busyScripted .blur [.mr a]).busy = true ∧
      a < (busyScripted .blur [.mr a]).memWords ∧
      (busyScripted .blur [.mr a]).schedule = .host :: [] ∧
      (busyScripted .blur [.mr a]).script = .mr a :: []) ∧
    ((scripted .blur [.mr 0x20]).memWords ≤ 0x20 ∧
      (scripted .blur [.mw 0x20 1]).script = .mw 0x20 1 :: []) ∧
    ((busyScripted .blur [.mr 0x20]).memWords ≤ 0x20 ∧
      (busyScripted .blur [.mr 0x20]).script = .mr 0x20 :: []) := by decide

/-- The ends of the source and of the destination region, the words just past them, and the first
word that does not exist. -/
theorem witness_hostWriteWhileBusy :
    let s := fun a => busyScripted .blur [.mw a 1]
    (∀ a ∈ [0, 1, 0x10, 0x11],
      (s a).busy = true ∧ (s a).schedule = .host :: [] ∧ (s a).script = .mw a 1 :: [] ∧
      (((s a).sb ≤ a ∧ a < (s a).sb + (s a).sw * (s a).sh) ∨
        ((s a).db ≤ a ∧ a < (s a).db + (s a).dw * (s a).dh))) ∧
    (∀ a ∈ [2, 0xF, 0x12, 0x1F],
      ¬ ((s a).sb ≤ a ∧ a < (s a).sb + (s a).sw * (s a).sh) ∧
      ¬ ((s a).db ≤ a ∧ a < (s a).db + (s a).dw * (s a).dh) ∧ a < (s a).memWords) ∧
    (¬ ((s 0x20).sb ≤ 0x20 ∧ 0x20 < (s 0x20).sb + (s 0x20).sw * (s 0x20).sh) ∧
      ¬ ((s 0x20).db ≤ 0x20 ∧ 0x20 < (s 0x20).db + (s 0x20).dw * (s 0x20).dh) ∧
      (s 0x20).memWords ≤ 0x20) := by decide

theorem witness_waitEndsWhenDone :
    (scripted .blur [.wait]).busy = false ∧ (scripted .blur [.wait]).script = .wait :: [] ∧
      (scripted .blur [.wait]).done = false ∧
      ({ scripted .blur [.wait] with done := true } : State).done = true ∧
    (busyScripted .blur [.wait]).busy = true ∧ (busyScripted .blur [.wait]).done = false ∧
      (busyScripted .blur [.wait]).schedule = .host :: [] ∧
      (busyScripted .blur [.wait]).script = .wait :: [] := by decide

theorem witness_resetInputEffect :
    ((busyScripted .blur [.rst]).script = .rst :: [] ∧
      (busyScripted .blur [.rst]).schedule =
        if (busyScripted .blur [.rst]).busy then .host :: [] else []) ∧
    ((scripted .blur [.rst]).script = .rst :: [] ∧
      (scripted .blur [.rst]).schedule =
        if (scripted .blur [.rst]).busy then .host :: [.core 0] else [.core 0]) := by decide

end Sys2Proof.Tests
end

section
/-!
The family 00_scope.md: the invariant `Legal` holds after reset and is kept by every step. One lemma
per state operation says that it keeps the invariant; a step is one of these operations
(`step_cases`).
-/

namespace Sys2Proof.Machine

open Sys2Proof

/-! ## Idle states -/

/-- With no command in flight the invariant speaks only of `PMEM`, `MEMWORDS` and `ACC`. -/
theorem legal_of_idle {s : State} (hpos : 1 ≤ s.memWords) (hle : s.memWords ≤ 2 ^ 32)
    (hwf : s.pmem.wf) (hlt : ∀ c ∈ s.pmem, c.1 < s.memWords) (hbusy : s.busy = false)
    (hpend : s.pending = []) (hacc : s.acc.Bounded) : Legal s where
  memWords_pos := hpos
  memWords_le := hle
  pmem_wf := hwf
  pmem_lt := hlt
  not_busy_done := by simp [hbusy]
  idle_pending := fun _ => hpend
  busy_admitted := by simp [hbusy]
  pending_sorted := by simp [hpend]
  pending_lt := by simp [hpend]
  acc_bounded := hacc

/-- Settles O39: the reset state is idle, with nothing written and `ACC` zero. -/
theorem resetIsLegal : Obligations.ResetIsLegal :=
  legal_of_idle (by decide) (by decide) List.Pairwise.nil (by simp [State.reset]) rfl rfl
    Acc.zero_bounded

/-- An idle state with the memory of a legal state is legal, whatever its other registers hold. -/
theorem Legal.idle_of_same_memory {s t : State} (h : Legal s) (hmem : t.memWords = s.memWords)
    (hpmem : t.pmem = s.pmem) (hbusy : t.busy = false) (hpend : t.pending = [])
    (hacc : t.acc.Bounded) : Legal t :=
  legal_of_idle (hmem ▸ h.memWords_pos) (hmem ▸ h.memWords_le) (hpmem ▸ h.pmem_wf)
    (by rw [hpmem, hmem]; exact h.pmem_lt) hbusy hpend hacc

theorem setReg_legal {s : State} (h : Legal s) (hbusy : s.busy = false) (r : Reg) (w : Word) :
    Legal (setReg r w s) :=
  h.idle_of_same_memory (by simp) (by simp) (by simp [hbusy]) (by simp [h.idle_pending hbusy])
    (by simpa using h.acc_bounded)

theorem applyReset_legal {s : State} (h : Legal s) : Legal (applyReset s) :=
  h.idle_of_same_memory rfl rfl rfl rfl Acc.zero_bounded

theorem complete_legal {s : State} (h : Legal s) (hpend : s.pending = []) : Legal (complete s) :=
  h.idle_of_same_memory rfl rfl rfl hpend h.acc_bounded

/-! ## Operations that leave the operands and `OPLATCH` alone -/

/-- While `BUSY = 1` the latched command stays admitted as long as the operands, `MEMWORDS` and
`OPLATCH` do not change (rules R62, R66, R166). -/
theorem Legal.admitted_of_sameOperands {s t : State} (h : Legal s) (hop : SameOperands s t)
    (hmem : t.memWords = s.memWords) (hlatch : t.oplatch = s.oplatch) (hbusy : s.busy = true) :
    ∃ cmd, t.oplatch = some cmd ∧ admits cmd t = true := by
  obtain ⟨cmd, hcmd, hadm⟩ := h.busy_admitted hbusy
  exact ⟨cmd, hlatch.trans hcmd, (hop.admits_eq hmem cmd).trans hadm⟩

/-- The script, the schedule and the word last read are no part of the invariant. -/
theorem withClock_legal {s : State} (h : Legal s) (schedule : List Turn) (script : List Action)
    (readData : Word) :
    Legal { s with schedule := schedule, script := script, readData := readData } :=
  { h with busy_admitted := h.admitted_of_sameOperands (.refl s) rfl rfl }

/-- A launch of an admitted command: every index below `dw*dh` is pending, in rising order. -/
theorem launch_legal {s : State} (h : Legal s) {cmd : Instr} (hadm : admits cmd s = true) :
    Legal (launch cmd (s.dw * s.dh) s) :=
  { h with
    not_busy_done := by simp
    idle_pending := by simp
    busy_admitted := fun _ => ⟨cmd, rfl, ((sameOperands_launch ..).admits_eq rfl cmd).trans hadm⟩
    pending_sorted := List.pairwise_lt_range
    pending_lt := fun _ hk => List.mem_range.1 hk }

/-- A write to a word that exists. -/
theorem putWord_legal {s : State} (h : Legal s) {a : Nat} (ha : a < s.memWords) (v : Word) :
    Legal (s.putWord a v) :=
  { h with
    pmem_wf := PMem.write_wf h.pmem_wf a v
    pmem_lt := fun c hc => by
      rcases PMem.mem_write hc with rfl | hc
      · exact ha
      · exact h.pmem_lt c hc
    busy_admitted := h.admitted_of_sameOperands (.refl s) rfl rfl }

theorem withAcc_legal {s : State} (h : Legal s) {acc : Acc} (hacc : acc.Bounded) :
    Legal (s.withAcc acc) :=
  { h with
    busy_admitted := h.admitted_of_sameOperands (.refl s) rfl rfl
    acc_bounded := hacc }

theorem dropPending_legal {s : State} (h : Legal s) (k : Nat) : Legal (s.dropPending k) :=
  { h with
    idle_pending := fun hbusy => by simp [h.idle_pending hbusy]
    busy_admitted := h.admitted_of_sameOperands (.refl s) rfl rfl
    pending_sorted := h.pending_sorted.filter _
    pending_lt := fun j hj => h.pending_lt j (List.mem_of_mem_filter hj) }

/-! ## The accumulator of a pixel step (rules R26, R113) -/

/-- A box blur leaves `ACC` inside its fields: the clamped window has at most `sw*sh` positions, and
both dimensions are 16-bit. -/
theorem outBlur_acc_bounded {s : State} {row col : Nat} {v : Word} {acc : Acc}
    (h : outBlur s row col = .next (v, acc)) : acc.Bounded := by
  simp only [outBlur, blurOver, andThen_eq_next, Host.Outcome.next.injEq, Prod.mk.injEq] at h
  obtain ⟨_, haccum, _, -, _, hsrc, -, rfl⟩ := h
  obtain ⟨hrow, hcol, -, -⟩ := src_eq_next.1 hsrc
  obtain ⟨⟨hred, hgreen, hblue, halpha⟩, hcount⟩ :=
    accumAll_bounds haccum (by simp [accReset, Acc.zero])
  have hwindow : (clampedWindow (srcImage s) s.dist row col).length ≤ s.sw * s.sh :=
    clampedWindow_length_le hrow hcol
  have harea : s.sw * s.sh < 2 ^ 16 * 2 ^ 16 := Nat.mul_lt_mul'' s.srcWidth.isLt s.srcHeight.isLt
  have hzero : (accReset s.acc).count = 0 := rfl
  exact ⟨by omega, hred, hgreen, hblue, halpha⟩

/-- `ACC` stays inside its fields in every per-pixel function: only `BLUR` uses it. -/
theorem outIndex_acc_bounded {cmd : Instr} {s : State} {k : Nat} {v : Word} {acc : Acc}
    (h : outIndex cmd s k = .next (v, acc)) (hacc : s.acc.Bounded) : acc.Bounded := by
  simp only [outIndex, andThen_eq_next] at h
  obtain ⟨row, -, col, -, hout⟩ := h
  cases cmd with
  | blur => exact outBlur_acc_bounded hout
  | squash | colorrot | expand =>
    simp only [outPixel, andThen_eq_next, Host.Outcome.next.injEq, Prod.mk.injEq] at hout
    obtain ⟨_, -, -, rfl⟩ := hout
    exact hacc

theorem pixelStep_legal {k : Nat} {s t : State} (h : Legal s) (hs : pixelStep k s = .next t) :
    Legal t := by
  obtain ⟨cmd, v, acc, -, hout, haddr, rfl⟩ := pixelStep_eq_next.1 hs
  have hacc : Legal (s.withAcc acc) := withAcc_legal h (outIndex_acc_bounded hout h.acc_bounded)
  exact dropPending_legal (putWord_legal hacc haddr v) k

/-! ## The step -/

/-- Settles O40: each effect a step can have keeps the invariant, on the state whose script and
schedule the step has moved on. -/
theorem stepKeepsLegality : Obligations.StepKeepsLegality := by
  intro s t h hs
  have hclock : ∀ sc rest, Legal { s with schedule := sc, script := rest } :=
    fun sc rest => withClock_legal h sc rest s.readData
  rcases step_cases hs with ⟨sc, rfl⟩ | ⟨r, w, rest, hbusy, -, -, rfl⟩ |
    ⟨w, cmd, rest, -, -, -, hadm, rfl⟩ | ⟨sc, rest, rd, rfl⟩ | ⟨sc, rest, a, v, -, -, ha, rfl⟩ |
    ⟨sc, rest, -, rfl⟩ | ⟨-, hpend, rfl⟩ | ⟨-, k, -, hpix⟩
  · exact hclock sc s.script
  · exact setReg_legal (hclock s.schedule rest) hbusy r w
  · have hadm' : admits cmd { s with script := rest } = true :=
      ((SameOperands.refl s).admits_eq rfl cmd).trans hadm
    exact launch_legal (hclock s.schedule rest) hadm'
  · exact withClock_legal h sc rest rd
  · exact putWord_legal (hclock sc rest) ha v
  · exact applyReset_legal (hclock sc rest)
  · exact complete_legal (hclock s.schedule.tail s.script) hpend
  · exact pixelStep_legal (hclock s.schedule.tail s.script) hpix

end Sys2Proof.Machine
end

section
/-!
The family 10_state.md, the command in flight: how the launch makes a state in flight, and why every
step keeps it so until completion or reset. A state in flight changes its memory only outside the
source region, and inside the destination only at the index that leaves `PENDING`.
-/

namespace Sys2Proof.Machine

open Sys2Proof

/-! ## What a launch establishes -/

/-- Right after a launch every destination index is still pending and no word has changed. -/
theorem launch_inFlight (cmd : Instr) (s : State) :
    InFlight cmd s (launch cmd (s.dw * s.dh) s) where
  busy := rfl
  done := rfl
  latch := rfl
  operands := sameOperands_launch cmd _ s
  memWords := rfl
  source := fun _ _ _ => rfl
  waiting := fun _ _ => rfl
  written := fun _ hk hnot => absurd (List.mem_range.2 hk) hnot

/-- Settles O41: a command that answers a state has launched. -/
theorem launchPutsInFlight : Obligations.LaunchPutsInFlight := by
  intro cmd s t h
  obtain ⟨-, -, rfl⟩ := exec_eq_next.1 h
  exact launch_inFlight cmd s

/-! ## The regions of an admitted command (rule R44) -/

/-- Every command's admission test includes `P-DISJ` (rules R44, R66). -/
theorem regions_disjoint_of_admits {cmd : Instr} {s : State} (h : admits cmd s = true) :
    s.sb + s.sw * s.sh ≤ s.db ∨ s.db + s.dw * s.dh ≤ s.sb := by
  have hdisj : pDisj s = true := by
    cases cmd <;>
      simp only [admits, admitsSquash, admitsColorrot, admitsBlur, admitsExpand, pCommon,
        Bool.and_eq_true] at h <;>
      tauto
  simpa [pDisj] using hdisj

/-- The command in flight in a legal state is admitted by it (rules R62, R166). -/
theorem InFlight.admitted {cmd : Instr} {l s : State} (h : InFlight cmd l s) (hleg : Legal s) :
    admits cmd s = true := by
  obtain ⟨cmd', hlatch, hadm⟩ := hleg.busy_admitted h.busy
  obtain rfl : cmd = cmd' := Option.some.inj (h.latch.symm.trans hlatch)
  exact hadm

/-! ## The pixel written is the launch's (rules R54, R68) -/

/-- Two states with the same operands and source give the same pixel. -/
theorem SameSource.outIndex_eq_next {s t : State} (h : SameSource s t) {cmd : Instr} {k : Nat}
    {v : Word} {acc : Acc} (ht : outIndex cmd t k = .next (v, acc)) :
    ∃ acc', outIndex cmd s k = .next (v, acc') := by
  have hpixel : andThen (outIndex cmd s k) (fun out => (.next out.1 : Result Word)) = .next v := by
    rw [← h.outIndex_eq cmd k, ht, andThen_next]
  obtain ⟨⟨v', acc'⟩, hs, hv⟩ := andThen_eq_next.1 hpixel
  obtain rfl : v' = v := by simpa using hv
  exact ⟨acc', hs⟩

/-- A state in flight has the operands and the source of its launch. -/
theorem InFlight.sameSource {cmd : Instr} {l s : State} (h : InFlight cmd l s) : SameSource l s :=
  ⟨h.operands, h.memWords, h.source⟩

/-! ## Operations that keep a command in flight -/

/-- The script, the schedule and the word last read are no part of a command in flight. -/
theorem InFlight.withClock {cmd : Instr} {l s : State} (h : InFlight cmd l s)
    (schedule : List Turn) (script : List Action) (readData : Word) :
    InFlight cmd l { s with schedule := schedule, script := script, readData := readData } :=
  { h with }

theorem InFlight.withAcc {cmd : Instr} {l s : State} (h : InFlight cmd l s) (acc : Acc) :
    InFlight cmd l (s.withAcc acc) :=
  { h with }

/-- A write outside the source and the destination region (rules R53, R167). -/
theorem InFlight.putWord_outside {cmd : Instr} {l s : State} (h : InFlight cmd l s)
    (hleg : Legal s) {a : Nat} (hout : inFlightRegion s a = false) (v : Word) :
    InFlight cmd l (s.putWord a v) := by
  obtain ⟨hsb, hsw, hsh, hdb, hdw, hdh, -⟩ := h.operands.values
  have hregion : ¬ ((l.sb ≤ a ∧ a < l.sb + l.sw * l.sh) ∨
      (l.db ≤ a ∧ a < l.db + l.dw * l.dh)) := fun hin => by
    rw [← hsb, ← hsw, ← hsh, ← hdb, ← hdw, ← hdh] at hin
    simp [inFlightRegion_eq_true.2 ⟨h.busy, hin⟩] at hout
  have hdst : ∀ k, k < l.dw * l.dh → l.db + k ≠ a := fun k hk => by omega
  exact { h with
    source := fun b hb hb' => by
      rw [putWord_pmem, PMem.read_write_other _ _ (by omega)]
      exact h.source b hb hb'
    waiting := fun k hk => by
      have hlt : k < l.dw * l.dh := hdw ▸ hdh ▸ hleg.pending_lt k hk
      rw [putWord_pmem, PMem.read_write_other _ _ (hdst k hlt)]
      exact h.waiting k hk
    written := fun k hk hnot => by
      rw [putWord_pmem, PMem.read_write_other _ _ (hdst k hk)]
      exact h.written k hk hnot }

/-- The write of a pending destination word, the launch's pixel for that index, which then leaves
`PENDING` (rule R68). -/
theorem InFlight.putPixel {cmd : Instr} {l s : State} (h : InFlight cmd l s) (hleg : Legal s)
    {k : Nat} (hk : k ∈ s.pending) {v : Word} {acc : Acc}
    (hpixel : outIndex cmd l k = .next (v, acc)) :
    InFlight cmd l ((s.putWord (s.db + k) v).dropPending k) := by
  obtain ⟨hsb, hsw, hsh, hdb, hdw, hdh, -⟩ := h.operands.values
  have hlt : k < l.dw * l.dh := hdw ▸ hdh ▸ hleg.pending_lt k hk
  have hdisj : l.sb + l.sw * l.sh ≤ l.db ∨ l.db + l.dw * l.dh ≤ l.sb := by
    rw [← hsb, ← hsw, ← hsh, ← hdb, ← hdw, ← hdh]
    exact regions_disjoint_of_admits (h.admitted hleg)
  rw [hdb]
  exact { h with
    source := fun a ha ha' => by
      rw [dropPending_pmem, putWord_pmem, PMem.read_write_other _ _ (by omega)]
      exact h.source a ha ha'
    waiting := fun j hj => by
      obtain ⟨hmem, hne⟩ : j ∈ s.pending ∧ j ≠ k := by simpa using hj
      rw [dropPending_pmem, putWord_pmem, PMem.read_write_other _ _ (by omega)]
      exact h.waiting j hmem
    written := fun j hj hnot => by
      rw [dropPending_pmem, putWord_pmem]
      by_cases hjk : j = k
      · subst hjk
        exact ⟨v, acc, hpixel, PMem.read_write_same _ _ _⟩
      · rw [PMem.read_write_other _ _ (by omega)]
        exact h.written j hj fun hmem => hnot (by simpa using ⟨hmem, hjk⟩) }

/-- A pixel step for a pending index (rules R28, R68). -/
theorem InFlight.after_pixelStep {cmd : Instr} {l s t : State} (h : InFlight cmd l s)
    (hleg : Legal s) {k : Nat} (hk : k ∈ s.pending) (hs : pixelStep k s = .next t) :
    InFlight cmd l t := by
  obtain ⟨cmd', v, acc, hlatch, hout, -, rfl⟩ := pixelStep_eq_next.1 hs
  obtain rfl : cmd = cmd' := Option.some.inj (h.latch.symm.trans hlatch)
  obtain ⟨acc', hpixel⟩ := h.sameSource.outIndex_eq_next hout
  have hacc : Legal (s.withAcc acc) :=
    withAcc_legal hleg (outIndex_acc_bounded hout hleg.acc_bounded)
  exact (h.withAcc acc).putPixel hacc hk hpixel

/-! ## The step -/

/-- Settles O42: of the effects a step can have, an idle machine's two are excluded, completion and
reset are the two ways out, and each of the others keeps the command in flight. -/
theorem inFlightUntilCompletionOrReset : Obligations.InFlightUntilCompletionOrReset := by
  intro cmd l s t hleg h hs
  have hbusy : s.busy ≠ false := by simp [h.busy]
  have hclock : ∀ sc rest, Legal { s with schedule := sc, script := rest } :=
    fun sc rest => withClock_legal hleg sc rest s.readData
  rcases step_cases hs with ⟨sc, rfl⟩ | ⟨r, w, rest, hidle, -⟩ | ⟨w, i, rest, hidle, -⟩ |
    ⟨sc, rest, rd, rfl⟩ | ⟨sc, rest, a, v, -, hout, -, rfl⟩ | ⟨sc, rest, hrst, rfl⟩ |
    ⟨-, hpend, rfl⟩ | ⟨-, k, hk, hpix⟩
  · exact .inl (h.withClock sc s.script s.readData)
  · exact absurd hidle hbusy
  · exact absurd hidle hbusy
  · exact .inl (h.withClock sc rest rd)
  · exact .inl ((h.withClock sc rest s.readData).putWord_outside (hclock sc rest) hout v)
  · exact .inr (.inr ⟨rest, hrst, rfl, rfl, rfl, rfl, rfl⟩)
  · exact .inr (.inl ⟨hpend, rfl⟩)
  · exact .inl ((h.withClock s.schedule.tail s.script s.readData).after_pixelStep
      (hclock s.schedule.tail s.script) hk hpix)

end Sys2Proof.Machine
end

section
/-!
The family 10_state.md, what may change a piece of state: `DONE`, the operand registers and `ACC`
over the effects a step can have (`step_cases`), and the registers that a command does not read.
-/

namespace Sys2Proof.Machine

open Sys2Proof

/-! ## What a pixel step leaves unchanged (rule R68) -/

/-- A pixel step changes `PMEM`, `PENDING` and `ACC` alone. -/
theorem pixelStep_frame {k : Nat} {s t : State} (h : pixelStep k s = .next t) :
    SameOperands s t ∧ t.busy = s.busy ∧ t.done = s.done ∧ t.oplatch = s.oplatch ∧
      t.script = s.script := by
  obtain ⟨cmd, v, acc, -, -, -, rfl⟩ := pixelStep_eq_next.1 h
  exact ⟨.refl s, rfl, rfl, rfl, rfl⟩

/-- The per-pixel functions other than `OUT_BLUR` leave `ACC` as it was (rule R26). -/
theorem outIndex_acc {cmd : Instr} {s : State} {k : Nat} {v : Word} {acc : Acc}
    (h : outIndex cmd s k = .next (v, acc)) (hcmd : cmd ≠ .blur) : acc = s.acc := by
  simp only [outIndex, andThen_eq_next] at h
  obtain ⟨row, -, col, -, hout⟩ := h
  cases cmd with
  | blur => exact absurd rfl hcmd
  | squash | colorrot | expand =>
    simp only [outPixel, andThen_eq_next, Host.Outcome.next.injEq, Prod.mk.injEq] at hout
    obtain ⟨_, -, -, hacc⟩ := hout
    exact hacc.symm

/-- A pixel step that changes `ACC` is one of `BLUR` (rule R26). -/
theorem oplatch_of_pixelStep_acc_ne {k : Nat} {s t : State} (h : pixelStep k s = .next t)
    (hacc : t.acc ≠ s.acc) : s.oplatch = some .blur := by
  obtain ⟨cmd, v, acc, hlatch, hout, -, rfl⟩ := pixelStep_eq_next.1 h
  by_cases hcmd : cmd = .blur
  · rw [hlatch, hcmd]
  · exact absurd (outIndex_acc hout hcmd) hacc

/-! ## The causes of a change -/

/-- Where `DONE` stays as it was, what is claimed of its changes holds. -/
theorem of_done_unchanged {s t : State} {P Q : Prop} (h : t.done = s.done) :
    (s.done = false → t.done = true → P) ∧ (s.done = true → t.done = false → Q) := by
  rw [h]
  exact ⟨fun h0 h1 => by simp [h0] at h1, fun h1 h0 => by simp [h1] at h0⟩

/-- Settles O44: completion alone sets `DONE`, a launch and a reset alone clear it. -/
theorem doneChangesOnlyByCompletionLaunchReset :
    Obligations.DoneChangesOnlyByCompletionLaunchReset := by
  intro s t hs
  rcases step_cases hs with ⟨sc, rfl⟩ | ⟨r, w, rest, -, -, -, rfl⟩ |
    ⟨w, i, rest, hidle, hscript, -, -, rfl⟩ | ⟨sc, rest, rd, rfl⟩ | ⟨sc, rest, a, v, -, -, -, rfl⟩ |
    ⟨sc, rest, hrst, rfl⟩ | ⟨hbusy, hpend, rfl⟩ | ⟨-, k, -, hpix⟩
  · exact of_done_unchanged rfl
  · exact of_done_unchanged (setReg_done ..)
  · exact ⟨by simp, fun _ _ => .inl ⟨w, rest, hidle, hscript, rfl, rfl⟩⟩
  · exact of_done_unchanged rfl
  · exact of_done_unchanged rfl
  · exact ⟨by simp, fun _ _ => .inr ⟨rest, hrst, rfl⟩⟩
  · exact ⟨fun _ _ => ⟨hbusy, hpend, rfl⟩, by simp⟩
  · obtain ⟨-, -, hdone, -⟩ := pixelStep_frame hpix
    exact of_done_unchanged hdone

/-- Settles O45: of the effects of a step only the host's register write and the reset touch an
operand register. -/
theorem operandRegistersChangeOnlyByHost : Obligations.OperandRegistersChangeOnlyByHost := by
  intro s t hs
  rcases step_cases hs with ⟨sc, rfl⟩ | ⟨r, w, rest, hidle, hscript, hcmd, rfl⟩ |
    ⟨w, i, rest, -, -, -, -, rfl⟩ | ⟨sc, rest, rd, rfl⟩ | ⟨sc, rest, a, v, -, -, -, rfl⟩ |
    ⟨sc, rest, hrst, rfl⟩ | ⟨-, -, rfl⟩ | ⟨-, k, -, hpix⟩
  · exact .inl (.refl s)
  · by_cases hstatus : r = .status
    · subst hstatus
      exact .inl (.refl s)
    · exact .inr (.inl ⟨r, w, rest, hidle, hscript, hcmd, hstatus, rfl⟩)
  · exact .inl (sameOperands_launch i _ { s with script := rest })
  · exact .inl (.refl s)
  · exact .inl (.refl s)
  · exact .inr (.inr ⟨rest, hrst, rfl⟩)
  · exact .inl (sameOperands_complete { s with schedule := s.schedule.tail })
  · exact .inl (pixelStep_frame hpix).1

/-- Settles O47: of the effects of a step only a pixel step of `BLUR` and the reset touch `ACC`. -/
theorem accChangesOnlyInBlur : Obligations.AccChangesOnlyInBlur := by
  intro s t hs hacc
  rcases step_cases hs with ⟨sc, rfl⟩ | ⟨r, w, rest, -, -, -, rfl⟩ |
    ⟨w, i, rest, -, -, -, -, rfl⟩ | ⟨sc, rest, rd, rfl⟩ | ⟨sc, rest, a, v, -, -, -, rfl⟩ |
    ⟨sc, rest, hrst, rfl⟩ | ⟨-, -, rfl⟩ | ⟨hbusy, k, hk, hpix⟩
  · exact absurd rfl hacc
  · exact absurd (setReg_acc ..) hacc
  · exact absurd rfl hacc
  · exact absurd rfl hacc
  · exact absurd rfl hacc
  · exact .inr ⟨rest, hrst, rfl⟩
  · exact absurd rfl hacc
  · obtain ⟨-, -, -, -, hscript⟩ := pixelStep_frame hpix
    have hlatch := oplatch_of_pixelStep_acc_ne hpix hacc
    exact .inl ⟨hbusy, hlatch, List.ne_nil_of_mem hk, hscript⟩

/-! ## The registers a command ignores (rule R13) -/

/-- The accumulation over a list of positions reads `PMEM` and `MEMWORDS` alone. -/
theorem accumAll_congr {s t : State} (hpmem : t.pmem = s.pmem) (hmem : t.memWords = s.memWords)
    (img : Image) (positions : List (Int × Int)) (acc : Acc) :
    accumAll t img positions acc = accumAll s img positions acc := by
  induction positions generalizing acc with
  | nil => rfl
  | cons rc rest ih =>
    obtain ⟨row, col⟩ := rc
    simp only [accumAll, accAccum, pixelAt, memRead, hpmem, hmem, ih]

/-- `OUT_BLUR` does not read the two factors (rules R13, R110). -/
theorem outBlur_ignores_factors (s : State) (x y : Dim) (row col : Nat) :
    outBlur { s with xfac := x, yfac := y } row col = outBlur s row col := by
  have hsrc : srcImage { s with xfac := x, yfac := y } = srcImage s := rfl
  have haccum := accumAll_congr (s := s) (t := { s with xfac := x, yfac := y }) rfl rfl
  simp only [outBlur, blurOver, hsrc, haccum]
  rfl

theorem outIndex_blur_ignores_factors (s : State) (x y : Dim) (k : Nat) :
    outIndex .blur { s with xfac := x, yfac := y } k = outIndex .blur s k := by
  simp only [outIndex, outPixel, outBlur_ignores_factors]
  rfl

/-- Settles O50: the definitions of COLORROT, EXPAND, SQUASH and of all four admission tests do not
mention the ignored registers; `OUT_BLUR` takes the recursion over its window. -/
theorem ignoredRegistersHaveNoEffect : Obligations.IgnoredRegistersHaveNoEffect :=
  fun s x y _ k =>
    ⟨rfl, rfl, outIndex_blur_ignores_factors s x y k, rfl, rfl, rfl, rfl, rfl⟩

end Sys2Proof.Machine
end

section
/-!
The family 10_state.md, the register port and the reset input: what a stored register reads
(`getReg` after `setReg`), and the step whose turn is the host's, for each action on a register.
-/

namespace Sys2Proof.Machine

open Sys2Proof

/-! ## A register after a store (rules R17 to R25, R61) -/

@[simp] theorem setReg_srcBase (r : Reg) (w : Word) (s : State) :
    (setReg r w s).srcBase = if r = .srcBase then w else s.srcBase := by cases r <;> rfl
@[simp] theorem setReg_srcWidth (r : Reg) (w : Word) (s : State) :
    (setReg r w s).srcWidth = if r = .srcWidth then w.setWidth 16 else s.srcWidth := by
  cases r <;> rfl
@[simp] theorem setReg_srcHeight (r : Reg) (w : Word) (s : State) :
    (setReg r w s).srcHeight = if r = .srcHeight then w.setWidth 16 else s.srcHeight := by
  cases r <;> rfl
@[simp] theorem setReg_dstBase (r : Reg) (w : Word) (s : State) :
    (setReg r w s).dstBase = if r = .dstBase then w else s.dstBase := by cases r <;> rfl
@[simp] theorem setReg_dstWidth (r : Reg) (w : Word) (s : State) :
    (setReg r w s).dstWidth = if r = .dstWidth then w.setWidth 16 else s.dstWidth := by
  cases r <;> rfl
@[simp] theorem setReg_dstHeight (r : Reg) (w : Word) (s : State) :
    (setReg r w s).dstHeight = if r = .dstHeight then w.setWidth 16 else s.dstHeight := by
  cases r <;> rfl
@[simp] theorem setReg_xfac (r : Reg) (w : Word) (s : State) :
    (setReg r w s).xfac = if r = .xfac then w.setWidth 16 else s.xfac := by cases r <;> rfl
@[simp] theorem setReg_yfac (r : Reg) (w : Word) (s : State) :
    (setReg r w s).yfac = if r = .yfac then w.setWidth 16 else s.yfac := by cases r <;> rfl
@[simp] theorem setReg_blurDist (r : Reg) (w : Word) (s : State) :
    (setReg r w s).blurDist = if r = .blurDist then w.setWidth 16 else s.blurDist := by
  cases r <;> rfl

/-- `STATUS` as read is determined by the two flags (rule R16). -/
theorem statusWord_toNat (s : State) :
    (statusWord s).toNat = 2 * s.done.toNat + s.busy.toNat := by
  simp only [statusWord]
  cases s.done <;> cases s.busy <;> decide

/-- A 16-bit register keeps the low half of the word (rules R18, R61). -/
theorem toNat_lowHalf (w : Word) : ((w.setWidth 16).setWidth 32).toNat = w.toNat % 2 ^ 16 := by
  simp only [BitVec.toNat_setWidth]
  omega

/-- The register stored reads the word, or its low 16 bits. -/
theorem getReg_setReg_same {r : Reg} (hcmd : r ≠ .cmd) (hstatus : r ≠ .status) (w : Word)
    (s : State) :
    (getReg r (setReg r w s)).toNat =
      if r = .srcBase ∨ r = .dstBase then w.toNat else w.toNat % 2 ^ 16 := by
  cases r with
  | cmd => exact absurd rfl hcmd
  | status => exact absurd rfl hstatus
  | srcBase | dstBase => rfl
  | srcWidth | srcHeight | dstWidth | dstHeight | xfac | yfac | blurDist => exact toNat_lowHalf w

/-- A store leaves what every other register reads. -/
theorem getReg_setReg_other {r r' : Reg} (h : r' ≠ r) (w : Word) (s : State) :
    getReg r' (setReg r w s) = getReg r' s := by
  cases r' <;> simp [getReg, statusWord, h.symm]

/-- What a register reads does not depend on the script or the schedule. -/
theorem getReg_clock (r : Reg) (s : State) (script : List Action) (schedule : List Turn) :
    getReg r { s with script := script, schedule := schedule } = getReg r s := by
  cases r <;> rfl

/-! ## Register transactions (rule R61) -/

/-- A write to `STATUS` is ignored, busy or not. -/
@[simp] theorem regWrite_status (w : Word) (s : State) :
    regWrite (Reg.offset .status) w s = .next s := by
  simp [regWrite]

/-- A write at the offset of an operand register of an idle core stores it. -/
theorem regWrite_operand {r : Reg} (hcmd : r ≠ .cmd) (hstatus : r ≠ .status) (w : Word)
    {s : State} (hidle : s.busy = false) : regWrite r.offset w s = .next (setReg r w s) := by
  cases r with
  | cmd => exact absurd rfl hcmd
  | status => exact absurd rfl hstatus
  | _ => simp [regWrite, hidle, Reg.offset, Reg.ofOffset]

/-- A read at the offset of a register returns it. -/
@[simp] theorem regRead_offset (r : Reg) (s : State) :
    regRead r.offset s = .next (s.returnWord (getReg r s)) :=
  regRead_eq_next.2 ⟨r, rfl, rfl⟩

/-! ## The step in which the host moves (rule R50) -/

/-- The host's move takes the head of the script. -/
theorem hostStep_cons {s : State} {act : Action} {rest : List Action}
    (h : s.script = act :: rest) : hostStep s = doAction act { s with script := rest } := by
  simp only [hostStep, h]

theorem step_idle_action {s : State} {act : Action} {rest : List Action} (hidle : s.busy = false)
    (h : s.script = act :: rest) : step s = doAction act { s with script := rest } := by
  rw [step_idle hidle, hostStep_cons h]

theorem step_busy_action {s : State} {act : Action} {rest : List Action} {turns : List Turn}
    (hbusy : s.busy = true) (hturn : s.schedule = .host :: turns) (h : s.script = act :: rest) :
    step s = doAction act { s with script := rest, schedule := turns } := by
  rw [step_busy_host hbusy hturn]
  exact hostStep_cons (s := { s with schedule := turns }) h

/-! ## The statements about the port -/

/-- Settles O51: the store reads back (`getReg_setReg_same`), and everything else stays. -/
theorem registerWriteStoresItsField : Obligations.RegisterWriteStoresItsField := by
  intro s off r w rest hidle hmap hcmd hstatus hscript
  obtain rfl := mem_registerMap.1 hmap
  have hstep : step s = .next (setReg r w { s with script := rest }) := by
    rw [step_idle_action hidle hscript]
    exact regWrite_operand hcmd hstatus w hidle
  refine ⟨_, hstep, getReg_setReg_same hcmd hstatus w _, fun r' hr' => ?_, ?_⟩
  · rw [getReg_setReg_other hr', getReg_clock]
  · simp

/-- Settles O52: a read returns `getReg`, whose value for each register is its operand value. -/
theorem registerReadReturnsItsValue : Obligations.RegisterReadReturnsItsValue := by
  refine ⟨fun s off r rest hidle hmap hscript => ?_,
    fun s off r rest turns hbusy hmap hturn hscript => ?_, fun s => ?_⟩
  · obtain rfl := mem_registerMap.1 hmap
    rw [step_idle_action hidle hscript, doAction, regRead_offset, getReg_clock]
    rfl
  · obtain rfl := mem_registerMap.1 hmap
    rw [step_busy_action hbusy hturn hscript, doAction, regRead_offset, getReg_clock]
    rfl
  · refine ⟨rfl, statusWord_toNat s, rfl, ?_, ?_, rfl, ?_, ?_, ?_, ?_, ?_⟩ <;>
      exact BitVec.toNat_setWidth_of_le (by decide)

/-- Settles O53: the write to `STATUS` leaves the state the script and the turn are taken from. -/
theorem statusWriteIsIgnored : Obligations.StatusWriteIsIgnored := by
  refine ⟨fun s w rest hidle hscript => ?_, fun s w rest turns hbusy hturn hscript => ?_⟩
  · rw [step_idle_action hidle hscript]
    exact regWrite_status w _
  · rw [step_busy_action hbusy hturn hscript]
    exact regWrite_status w _

/-! ## Reset (rules R32, R160, R162) -/

/-- After the reset input every register reads 0. -/
@[simp] theorem getReg_applyReset (r : Reg) (s : State) : getReg r (applyReset s) = 0 := by
  cases r with
  | status => exact BitVec.eq_of_toNat_eq (statusWord_toNat _)
  | _ => rfl

/-- The step that takes the reset input, with a command in flight or not. -/
theorem step_rst {s : State} {rest : List Action} {turns : List Turn}
    (hscript : s.script = .rst :: rest)
    (hturn : s.schedule = if s.busy then .host :: turns else turns) :
    step s = .next (applyReset { s with script := rest, schedule := turns }) := by
  cases hbusy : s.busy with
  | true =>
    rw [step_busy_action hbusy (by simpa [hbusy] using hturn) hscript]
    rfl
  | false =>
    obtain rfl : s.schedule = turns := by simpa [hbusy] using hturn
    rw [step_idle_action hbusy hscript]
    rfl

/-- Settles O59: the next state is the reset one, on the script and schedule moved on. -/
theorem resetInputEffect : Obligations.ResetInputEffect :=
  fun _ _ _ hscript hturn =>
    ⟨_, step_rst hscript hturn, fun r => getReg_applyReset r _, rfl, rfl, rfl, rfl, rfl, rfl, rfl,
      rfl, rfl⟩

/-- No command is admitted while its dimensions are 0 (rules R32, R66). -/
theorem admits_reset (cmd : Instr) : admits cmd State.reset = false := by
  cases cmd <;> decide

/-- Settles O60: each register of the reset state is 0, and `P-DIM` fails for every command. -/
theorem resetValues : Obligations.ResetValues := by
  refine ⟨fun r => ?_, rfl, rfl, rfl, rfl, rfl, PMem.read_nil, fun cmd => ?_⟩
  · cases r <;> rfl
  · rw [exec_eq_launchAttempt]
    exact launchAttempt_eq_refused.2 (.inr ⟨rfl, admits_reset cmd, rfl⟩)

end Sys2Proof.Machine
end

section
/-!
The family 20_memory.md, the source words that an output pixel needs: each per-pixel function of an
admitted command answers where the words of `sourceReads` are written, and is refused as
UnwrittenSource where one of them is not. Sequencing joins what its two parts need.
-/

namespace Sys2Proof.Machine

open Sys2Proof

/-! ## What a computation needs of the source image (rule R41) -/

/-- Every source word at the listed positions has been written. -/
def PositionsWritten (s : State) (ps : List (Nat × Nat)) : Prop :=
  ∀ rc ∈ ps, ∃ p, s.pmem.read (s.sb + rc.1 * s.sw + rc.2) = some p

theorem readsWritten_iff {cmd : Instr} {s : State} {k : Nat} :
    ReadsWritten cmd s k ↔ PositionsWritten s (sourceReads cmd s (k / s.dw) (k % s.dw)) :=
  Iff.rfl

theorem positionsWritten_append {s : State} {ps qs : List (Nat × Nat)} :
    PositionsWritten s (ps ++ qs) ↔ PositionsWritten s ps ∧ PositionsWritten s qs :=
  List.forall_mem_append

theorem positionsWritten_congr {s : State} {ps qs : List (Nat × Nat)}
    (h : ∀ rc, rc ∈ ps ↔ rc ∈ qs) : PositionsWritten s ps ↔ PositionsWritten s qs :=
  forall_congr' fun rc => imp_congr_left (h rc)

/-- A computation that stops on an unwritten source word at the listed positions, and on nothing
else. -/
structure NeedsWritten {α : Type} (s : State) (ps : List (Nat × Nat)) (r : Result α) : Prop where
  answers : PositionsWritten s ps → ∃ a, r = .next a
  refused : ¬ PositionsWritten s ps → r = .refused .unwrittenSource

/-- Whether the words are written or not, one of the two outcomes is met. -/
theorem NeedsWritten.answers_or_refused {α : Type} {s : State} {ps : List (Nat × Nat)}
    {r : Result α} (h : NeedsWritten s ps r) :
    (∃ a, r = .next a) ∨ r = .refused .unwrittenSource :=
  (em (PositionsWritten s ps)).imp h.answers h.refused

theorem NeedsWritten.next {α : Type} (s : State) (a : α) :
    NeedsWritten s [] (.next a : Result α) :=
  ⟨fun _ => ⟨a, rfl⟩, fun h => absurd (List.forall_mem_nil _) h⟩

/-- The order and the repetition of the positions do not matter. -/
theorem NeedsWritten.congr {α : Type} {s : State} {ps qs : List (Nat × Nat)} {r : Result α}
    (h : NeedsWritten s ps r) (hmem : ∀ rc, rc ∈ ps ↔ rc ∈ qs) : NeedsWritten s qs r :=
  ⟨fun hq => h.answers ((positionsWritten_congr hmem).2 hq),
    fun hq => h.refused fun hp => hq ((positionsWritten_congr hmem).1 hp)⟩

/-- A sequence needs what its first part needs and then what its second part does. -/
theorem NeedsWritten.andThen {α β : Type} {s : State} {ps qs : List (Nat × Nat)} {r : Result α}
    {f : α → Result β} (h : NeedsWritten s ps r)
    (hf : ∀ a, r = .next a → NeedsWritten s qs (f a)) :
    NeedsWritten s (ps ++ qs) (andThen r f) := by
  by_cases hp : PositionsWritten s ps
  · obtain ⟨a, ha⟩ := h.answers hp
    rw [ha, andThen_next]
    refine ⟨fun hw => ?_, fun hw => ?_⟩
    · exact (hf a ha).answers (positionsWritten_append.1 hw).2
    · exact (hf a ha).refused fun hq => hw (positionsWritten_append.2 ⟨hp, hq⟩)
  · rw [h.refused hp, andThen_refused]
    exact ⟨fun hw => absurd (positionsWritten_append.1 hw).1 hp, fun _ => rfl⟩

/-- What follows may be anything that always answers. -/
theorem NeedsWritten.andThen_next {α β : Type} {s : State} {ps : List (Nat × Nat)} {r : Result α}
    {f : α → Result β} (h : NeedsWritten s ps r) (hf : ∀ a, r = .next a → ∃ b, f a = .next b) :
    NeedsWritten s ps (Machine.andThen r f) := by
  rw [← List.append_nil ps]
  refine h.andThen fun a ha => ?_
  obtain ⟨b, hb⟩ := hf a ha
  exact hb ▸ .next s b

/-! ## Reads of the source image (rules R43, R65, R90) -/

/-- A source pixel in bounds needs its own word: the region lies inside the memory. -/
theorem src_needs {s : State} (hfit : s.sb + s.sw * s.sh ≤ s.memWords) {row col : Nat}
    (hrow : row < s.sh) (hcol : col < s.sw) : NeedsWritten s [(row, col)] (src s row col) := by
  have haddr : s.sb + row * s.sw + col < s.memWords :=
    (Image.addr_lt_limit (img := srcImage s) hrow hcol).trans_le hfit
  rw [src_inb hrow hcol]
  refine ⟨fun hw => ?_, fun hw => ?_⟩
  · obtain ⟨p, hp⟩ := hw (row, col) (List.mem_singleton_self _)
    exact ⟨p, memRead_eq_next.2 ⟨haddr, hp⟩⟩
  · have hnone : s.pmem.read (s.sb + row * s.sw + col) = none := by
      by_contra hsome
      refine hw fun rc hrc => ?_
      rw [List.mem_singleton.1 hrc]
      exact Option.ne_none_iff_exists'.1 hsome
    exact memRead_eq_refused.2 (.inl ⟨haddr, hnone, rfl⟩)

theorem srcAvg2_needs {s : State} (hfit : s.sb + s.sw * s.sh ≤ s.memWords) {r1 c1 r2 c2 : Nat}
    (hr1 : r1 < s.sh) (hc1 : c1 < s.sw) (hr2 : r2 < s.sh) (hc2 : c2 < s.sw) :
    NeedsWritten s [(r1, c1), (r2, c2)] (srcAvg2 s r1 c1 r2 c2) :=
  (src_needs hfit hr1 hc1).andThen fun _ _ =>
    (src_needs hfit hr2 hc2).andThen_next fun _ _ => ⟨_, rfl⟩

theorem srcAvg4_needs {s : State} (hfit : s.sb + s.sw * s.sh ≤ s.memWords) {r c : Nat}
    (hr : r + 1 < s.sh) (hc : c + 1 < s.sw) :
    NeedsWritten s [(r, c), (r, c + 1), (r + 1, c), (r + 1, c + 1)] (srcAvg4 s r c) :=
  have hr0 : r < s.sh := Nat.lt_of_succ_lt hr
  have hc0 : c < s.sw := Nat.lt_of_succ_lt hc
  (src_needs hfit hr0 hc0).andThen fun _ _ => (src_needs hfit hr0 hc).andThen fun _ _ =>
    (src_needs hfit hr hc0).andThen fun _ _ =>
      (src_needs hfit hr hc).andThen_next fun _ _ => ⟨_, rfl⟩

/-! ## EXPAND (rule R126) -/

/-- The nine cases of rule R126 by what they read: a right neighbour, a lower one, both or none. -/
theorem outExpand_eq (s : State) (row col : Nat) :
    outExpand s row col =
      if col % 2 = 1 ∧ col / 2 + 1 < s.sw then
        if row % 2 = 1 ∧ row / 2 + 1 < s.sh then srcAvg4 s (row / 2) (col / 2)
        else srcAvg2 s (row / 2) (col / 2) (row / 2) (col / 2 + 1)
      else if row % 2 = 1 ∧ row / 2 + 1 < s.sh then
        srcAvg2 s (row / 2) (col / 2) (row / 2 + 1) (col / 2)
      else src s (row / 2) (col / 2) := by
  simp only [outExpand]
  split <;> simp_all [isOdd, rightEdge, bottomEdge, Nat.not_lt.2]

theorem outExpand_needs {s : State} (hfit : s.sb + s.sw * s.sh ≤ s.memWords) {row col : Nat}
    (hrow : row / 2 < s.sh) (hcol : col / 2 < s.sw) :
    NeedsWritten s (sourceReads .expand s row col) (outExpand s row col) := by
  rw [outExpand_eq]
  simp only [sourceReads]
  split_ifs with hacross hdown hdown
  · exact srcAvg4_needs hfit hdown.2 hacross.2
  · exact srcAvg2_needs hfit hrow hcol hrow hacross.2
  · exact srcAvg2_needs hfit hrow hcol hdown.2 hcol
  · exact src_needs hfit hrow hcol

/-! ## BLUR (rules R112, R113) -/

/-- The set `S` of rule R112: the positions in bounds within the distance. -/
theorem mem_blurSet {s : State} {row col r c : Nat} :
    (r, c) ∈ blurSet s row col ↔ (r < s.sh ∧ c < s.sw) ∧
      row ≤ r + s.dist ∧ r ≤ row + s.dist ∧ col ≤ c + s.dist ∧ c ≤ col + s.dist := by
  simp [blurSet]

/-- An output pixel inside the image is in its own set `S`. -/
theorem self_mem_blurSet {s : State} {row col : Nat} (hrow : row < s.sh) (hcol : col < s.sw) :
    (row, col) ∈ blurSet s row col :=
  mem_blurSet.2 ⟨⟨hrow, hcol⟩, by omega⟩

/-- The clamped window of an output pixel inside the image holds exactly the set `S`. -/
theorem mem_clampedWindow {s : State} {row col : Nat} (hrow : row < s.sh) (hcol : col < s.sw)
    {rc : Int × Int} :
    rc ∈ clampedWindow (srcImage s) s.dist row col ↔
      ∃ r c : Nat, rc = ((r : Int), (c : Int)) ∧ (r, c) ∈ blurSet s row col := by
  simp only [clampedWindow, srcImage, List.mem_flatMap, List.mem_map, List.mem_range, mem_blurSet]
  constructor
  · rintro ⟨i, hi, j, hj, rfl⟩
    exact ⟨_, _, rfl, by omega⟩
  · rintro ⟨r, c, rfl, h⟩
    refine ⟨r - (row - s.dist), by omega, c - (col - s.dist), by omega, ?_⟩
    rw [Nat.add_sub_cancel' (by omega), Nat.add_sub_cancel' (by omega)]

theorem inb_of_mem_clampedWindow {s : State} {row col : Nat} (hrow : row < s.sh)
    (hcol : col < s.sw) {rc : Int × Int} (h : rc ∈ clampedWindow (srcImage s) s.dist row col) :
    inb (srcImage s) rc.1 rc.2 = true := by
  obtain ⟨r, c, rfl, hmem⟩ := (mem_clampedWindow hrow hcol).1 h
  exact inb_ofNat.2 (mem_blurSet.1 hmem).1

/-- The clamped window in natural coordinates is the set `S`. -/
theorem mem_map_clampedWindow {s : State} {row col : Nat} (hrow : row < s.sh) (hcol : col < s.sw)
    {rc : Nat × Nat} :
    rc ∈ (clampedWindow (srcImage s) s.dist row col).map (fun p => (p.1.toNat, p.2.toNat)) ↔
      rc ∈ blurSet s row col := by
  rw [List.mem_map]
  constructor
  · rintro ⟨p, hp, rfl⟩
    obtain ⟨r, c, rfl, hmem⟩ := (mem_clampedWindow hrow hcol).1 hp
    exact hmem
  · intro hmem
    exact ⟨(rc.1, rc.2), (mem_clampedWindow hrow hcol).2 ⟨rc.1, rc.2, rfl, hmem⟩, rfl⟩

/-- One accumulation in bounds needs its own word. -/
theorem accAccum_needs {s : State} (hfit : s.sb + s.sw * s.sh ≤ s.memWords) {row col : Int}
    (hinb : inb (srcImage s) row col = true) (acc : Acc) :
    NeedsWritten s [(row.toNat, col.toNat)] (accAccum s (srcImage s) row col acc) := by
  rw [accAccum, if_pos hinb]
  obtain ⟨r, c, rfl, rfl, hr, hc⟩ := inb_eq_true.1 hinb
  exact (src_needs hfit hr hc).andThen_next fun _ _ => ⟨_, rfl⟩

/-- Accumulating over positions in bounds needs their words. -/
theorem accumAll_needs {s : State} (hfit : s.sb + s.sw * s.sh ≤ s.memWords)
    {positions : List (Int × Int)}
    (hinb : ∀ rc ∈ positions, inb (srcImage s) rc.1 rc.2 = true) (acc : Acc) :
    NeedsWritten s (positions.map fun rc => (rc.1.toNat, rc.2.toNat))
      (accumAll s (srcImage s) positions acc) := by
  induction positions generalizing acc with
  | nil => exact .next s acc
  | cons rc rest ih =>
    obtain ⟨hhead, hrest⟩ := List.forall_mem_cons.1 hinb
    exact (accAccum_needs hfit hhead acc).andThen fun acc' _ => ih hrest acc'

/-- Accumulating over positions in bounds counts each of them. -/
theorem accumAll_count {s : State} {img : Image} {positions : List (Int × Int)}
    (hinb : ∀ rc ∈ positions, inb img rc.1 rc.2 = true) {acc acc' : Acc}
    (h : accumAll s img positions acc = .next acc') :
    acc'.count = acc.count + positions.length := by
  induction positions generalizing acc with
  | nil =>
    obtain rfl : acc = acc' := by simpa [accumAll] using h
    rfl
  | cons rc rest ih =>
    obtain ⟨hhead, hrest⟩ := List.forall_mem_cons.1 hinb
    obtain ⟨acc₁, hone, hall⟩ := andThen_eq_next.1 h
    rcases accAccum_eq_next.1 hone with ⟨-, p, -, rfl⟩ | ⟨hout, -⟩
    · have hadd : (acc.addPixel p).count = acc.count + 1 := rfl
      rw [ih hrest hall, hadd, List.length_cons]
      omega
    · simp [hhead] at hout

/-- A number that is at most 255 times a count has a channel for its mean. -/
theorem toChannel_mean_answers {sum count : Nat} (h : sum ≤ 255 * count) :
    ∃ c, toChannel (sum / count) = .next c := by
  have hmean : sum / count ≤ 255 := Nat.div_le_of_le_mul (by rwa [Nat.mul_comm])
  exact ⟨_, if_pos (by omega)⟩

/-- `ACC_FINAL` answers wherever a pixel has been counted and the sums are within bounds
(rules R26, R96). -/
theorem accFinal_answers {acc : Acc} (hcount : acc.count ≠ 0)
    (hsums : acc.sumR ≤ 255 * acc.count ∧ acc.sumG ≤ 255 * acc.count ∧
      acc.sumB ≤ 255 * acc.count ∧ acc.sumA ≤ 255 * acc.count) :
    ∃ q, accFinal acc = .next q := by
  obtain ⟨hred, hgreen, hblue, halpha⟩ := hsums
  obtain ⟨r, hr⟩ := toChannel_mean_answers hred
  obtain ⟨g, hg⟩ := toChannel_mean_answers hgreen
  obtain ⟨b, hb⟩ := toChannel_mean_answers hblue
  obtain ⟨a, ha⟩ := toChannel_mean_answers halpha
  exact ⟨encodePx r g b a, by simp [accFinal, hcount, hr, hg, hb, ha]⟩

/-- After the accumulation over the clamped window `ACC_FINAL` answers: the window is not empty. -/
theorem accFinal_clampedWindow_answers {s : State} {row col : Nat} (hrow : row < s.sh)
    (hcol : col < s.sw) {acc : Acc}
    (h : accumAll s (srcImage s) (clampedWindow (srcImage s) s.dist row col) Acc.zero = .next acc) :
    ∃ q, accFinal acc = .next q := by
  have hcount := accumAll_count (fun _ => inb_of_mem_clampedWindow hrow hcol) h
  have hself : ((row : Int), (col : Int)) ∈ clampedWindow (srcImage s) s.dist row col :=
    (mem_clampedWindow hrow hcol).2 ⟨row, col, rfl, self_mem_blurSet hrow hcol⟩
  have hlength := List.length_pos_of_mem hself
  exact accFinal_answers (by omega) (accumAll_bounds h (by simp [Acc.zero])).1

/-- `OUT_BLUR` needs the words of the set `S`; the source pixel it takes the alpha from is one of
them. -/
theorem outBlur_needs {s : State} (hfit : s.sb + s.sw * s.sh ≤ s.memWords) {row col : Nat}
    (hrow : row < s.sh) (hcol : col < s.sw) :
    NeedsWritten s (sourceReads .blur s row col) (outBlur s row col) := by
  have hwindow := accumAll_needs hfit (fun _ => inb_of_mem_clampedWindow hrow hcol) Acc.zero
  simp only [outBlur, blurOver, accReset]
  refine (hwindow.andThen (qs := [(row, col)]) fun acc hacc => ?_).congr fun rc => ?_
  · obtain ⟨q, hq⟩ := accFinal_clampedWindow_answers hrow hcol hacc
    rw [hq, andThen_next]
    exact (src_needs hfit hrow hcol).andThen_next fun _ _ => ⟨_, rfl⟩
  · rw [List.mem_append, List.mem_singleton, mem_map_clampedWindow hrow hcol]
    exact ⟨fun h => h.elim id fun heq => heq ▸ self_mem_blurSet hrow hcol, .inl⟩

/-! ## Every command (rules R66, R68) -/

/-- The admission test is the preconditions in plain arithmetic (rule R66). -/
theorem admits_iff_preconditions {cmd : Instr} {s : State} :
    admits cmd s = true ↔ Preconditions cmd s := by
  cases cmd <;>
    simp [admits, admitsSquash, admitsColorrot, admitsBlur, admitsExpand, pCommon, pDim, pFit,
      pDisj, pSqFac, pSqBnd, pSame, pExp, Preconditions, CommonPreconditions, and_assoc]

/-- `OUT_cmd` of a destination position of an admitted command needs the words of `sourceReads`:
the preconditions keep all of them inside the source image. -/
theorem outPixel_needs {cmd : Instr} {s : State} (hpre : Preconditions cmd s) {row col : Nat}
    (hrow : row < s.dh) (hcol : col < s.dw) :
    NeedsWritten s (sourceReads cmd s row col) (outPixel cmd s row col) := by
  obtain ⟨⟨-, -, -, -, hfit, -, -⟩, hcmd⟩ := hpre
  cases cmd with
  | squash =>
    obtain ⟨hxf, hyf, hwidth, hheight⟩ := hcmd
    have hr : row * s.yf < s.sh := (Nat.mul_lt_mul_of_pos_right hrow hyf).trans_le hheight
    have hc : col * s.xf < s.sw := (Nat.mul_lt_mul_of_pos_right hcol hxf).trans_le hwidth
    exact (src_needs hfit hr hc).andThen_next fun _ _ => ⟨_, rfl⟩
  | colorrot =>
    obtain ⟨hwidth, hheight⟩ := hcmd
    have hrot := (src_needs hfit (hheight ▸ hrow) (hwidth ▸ hcol)).andThen_next
      (f := fun p => .next (rot p)) fun _ _ => ⟨_, rfl⟩
    exact hrot.andThen_next fun _ _ => ⟨_, rfl⟩
  | blur =>
    obtain ⟨hwidth, hheight⟩ := hcmd
    exact outBlur_needs hfit (hheight ▸ hrow) (hwidth ▸ hcol)
  | expand =>
    obtain ⟨hwidth, hheight⟩ := hcmd
    exact (outExpand_needs hfit (by omega) (by omega)).andThen_next fun _ _ => ⟨_, rfl⟩

theorem outIndex_needs {cmd : Instr} {s : State} (hpre : Preconditions cmd s) {k : Nat}
    (hk : k < s.dw * s.dh) :
    NeedsWritten s (sourceReads cmd s (k / s.dw) (k % s.dw)) (outIndex cmd s k) := by
  have hwidth : 0 < s.dw := Nat.pos_of_mul_pos_right (Nat.zero_lt_of_lt hk)
  simp only [outIndex, rowOf_eq_next.2 ⟨hwidth.ne', rfl⟩, colOf_eq_next.2 ⟨hwidth.ne', rfl⟩,
    andThen_next]
  exact outPixel_needs hpre (Nat.div_lt_of_lt_mul hk) (Nat.mod_lt k hwidth)

/-! ## The pixel step (rules R41, R68) -/

/-- In a legal state with a command in flight, the pixel step for a pending index needs the source
words of its own output pixel, and nothing else can stop it. -/
theorem pixelStep_needs {cmd : Instr} {s : State} (h : Legal s) (hbusy : s.busy = true)
    (hlatch : s.oplatch = some cmd) {k : Nat} (hk : k ∈ s.pending) :
    NeedsWritten s (sourceReads cmd s (k / s.dw) (k % s.dw)) (pixelStep k s) := by
  obtain ⟨cmd', hlatch', hadm⟩ := h.busy_admitted hbusy
  obtain rfl : cmd = cmd' := Option.some.inj (hlatch.symm.trans hlatch')
  have hpre : Preconditions cmd s := admits_iff_preconditions.1 hadm
  have hlt : k < s.dw * s.dh := h.pending_lt k hk
  have hexists : s.db + k < s.memWords := by
    obtain ⟨⟨-, -, -, -, -, hfit, -⟩, -⟩ := hpre
    omega
  simp only [pixelStep, hlatch]
  refine (outIndex_needs hpre hlt).andThen_next fun out _ => ?_
  rw [(memWrite_eq_next (s := s.withAcc out.2)).2 ⟨hexists, rfl⟩]
  exact ⟨_, rfl⟩

/-- A step in which the core takes an index needs what its pixel step needs: the schedule it leaves
plays no part. -/
theorem step_needs {cmd : Instr} {s : State} {k : Nat} (h : Legal s)
    (hlatch : s.oplatch = some cmd) (hpick : CorePicks s k) :
    NeedsWritten s (sourceReads cmd s (k / s.dw) (k % s.dw)) (step s) := by
  obtain ⟨sc, hstep⟩ := step_of_corePicks hpick
  obtain ⟨hbusy, n, hk, -⟩ := hpick
  have hneeds := pixelStep_needs (withClock_legal h sc s.script s.readData) hbusy hlatch
    (pickIndex_mem hk)
  rw [hstep]
  exact ⟨hneeds.answers, hneeds.refused⟩

theorem corePicks_of_turn {s : State} {n k : Nat} {rest : List Turn} (hbusy : s.busy = true)
    (hturn : s.schedule = .core n :: rest) (hk : pickIndex s.pending n = some k) : CorePicks s k :=
  ⟨hbusy, n, hk, .inr ⟨rest, hturn⟩⟩

/-- The core's turn with nothing pending is the completion step (rule R69). -/
theorem step_core_completes {s : State} {n : Nat} {rest : List Turn} (hbusy : s.busy = true)
    (hturn : s.schedule = .core n :: rest) (hk : pickIndex s.pending n = none) :
    step s = .next (complete { s with schedule := rest }) := by
  rw [step_busy_core hbusy hturn]
  simp only [coreStep, hk]

/-- Settles O20: the pixel step is refused as what it needs says (`step_needs`). -/
theorem pixelStepOfUnwrittenWordIsRefused : Obligations.PixelStepOfUnwrittenWordIsRefused :=
  fun _ _ _ _ _ h hbusy hlatch hturn hk hunwritten =>
    (step_needs h hlatch (corePicks_of_turn hbusy hturn hk)).refused fun hw =>
      hunwritten (readsWritten_iff.2 hw)

/-- Settles O19: the core completes, or takes a pending index, whose pixel step needs only its
source words. -/
theorem coreStepStopsOnlyOnUnwrittenSource : Obligations.CoreStepStopsOnlyOnUnwrittenSource := by
  intro s n rest h hbusy hturn
  cases hk : pickIndex s.pending n with
  | none => exact .inl ⟨_, step_core_completes hbusy hturn hk⟩
  | some k =>
    obtain ⟨cmd, hlatch, -⟩ := h.busy_admitted hbusy
    exact (step_needs h hlatch (corePicks_of_turn hbusy hturn hk)).answers_or_refused

end Sys2Proof.Machine
end

section
/-!
The family 20_memory.md, the command that completes: a run with `BUSY` held keeps a launched command
in flight, so the step that sets `DONE` is the completion step of a command with nothing pending.
-/

namespace Sys2Proof.Machine

open Sys2Proof

/-- With nothing pending every destination word is the launch's pixel (rules R68, R75). -/
theorem InFlight.destination_of_pending_nil {cmd : Instr} {l s : State} (h : InFlight cmd l s)
    (hpend : s.pending = []) {k : Nat} (hk : k < l.dw * l.dh) :
    ∃ v acc, outIndex cmd l k = .next (v, acc) ∧ s.pmem.read (l.db + k) = some v :=
  h.written k hk (by simp [hpend])

/-- A step of a command in flight that leaves `BUSY` set keeps it in flight (rules R53, R68). -/
theorem InFlight.of_step_busy {cmd : Instr} {l s t : State} (hleg : Legal s)
    (h : InFlight cmd l s) (hs : step s = .next t) (hbusy : t.busy = true) : InFlight cmd l t := by
  rcases inFlightUntilCompletionOrReset cmd l s t hleg h hs with
    h | ⟨-, rfl⟩ | ⟨rest, -, -, hidle, -⟩
  · exact h
  · simp at hbusy
  · simp [hidle] at hbusy

/-- A step of a command in flight that sets `DONE` is its completion step (rules R16, R69). -/
theorem InFlight.completes_of_step_done {cmd : Instr} {l s t : State} (hleg : Legal s)
    (h : InFlight cmd l s) (hs : step s = .next t) (hdone : t.done = true) :
    s.pending = [] ∧ t = complete { s with schedule := s.schedule.tail } := by
  rcases inFlightUntilCompletionOrReset cmd l s t hleg h hs with
    h | hcomplete | ⟨rest, -, -, -, hnot, -⟩
  · simp [h.done] at hdone
  · exact hcomplete
  · simp [hnot] at hdone

/-- A run of one step more, taken apart at its first step. -/
theorem run_succ_eq_next {m : Nat} {u s : State} :
    Host.Core.run Sys2Proof.core (m + 1) u = .next s ↔
      ∃ x, step u = .next x ∧ Host.Core.run Sys2Proof.core m x = .next s := by
  cases hstep : step u with
  | next x => simp [run_succ hstep]
  | fault e => exact absurd hstep ne_fault
  | refused e =>
    have hstep' : Sys2Proof.core.step u = .refused e := hstep
    simp [Host.Core.run, hstep']

/-- Along a run with `BUSY` held a command in flight stays so, through legal states. -/
theorem InFlight.of_run_busy {cmd : Instr} {l u s : State} {m : Nat} (hleg : Legal u)
    (h : InFlight cmd l u) (hrun : Host.Core.run Sys2Proof.core m u = .next s)
    (hbusy : ∀ (j : Nat) (x : State), j ≤ m → Host.Core.run Sys2Proof.core j u = .next x →
      x.busy = true) : Legal s ∧ InFlight cmd l s := by
  induction m generalizing u with
  | zero =>
    obtain rfl : u = s := Host.Outcome.next.inj hrun
    exact ⟨hleg, h⟩
  | succ m ih =>
    obtain ⟨x, hstep, hrest⟩ := run_succ_eq_next.1 hrun
    have hx : x.busy = true := hbusy 1 x (by omega) (run_succ_eq_next.2 ⟨x, hstep, rfl⟩)
    refine ih (stepKeepsLegality u x hleg hstep) (h.of_step_busy hleg hstep hx) hrest
      fun j y hj hy => ?_
    exact hbusy (j + 1) y (by omega) (run_succ_eq_next.2 ⟨x, hstep, hy⟩)

/-- Settles O43: with nothing pending the completion step leaves the whole destination, and the step
of a run that sets `DONE` is that step. -/
theorem completedCommandHasWrittenItsDestination :
    Obligations.CompletedCommandHasWrittenItsDestination := by
  refine ⟨fun cmd l s n rest _ h hpend hturn => ?_,
    fun cmd l u s t m hleg hexec hrun hbusy hstep hdone => ?_⟩
  · have hs := step_core_completes h.busy hturn (pickIndex_eq_none.2 hpend)
    exact ⟨_, hs, rfl, rfl, h.operands, fun k hk => h.destination_of_pending_nil hpend hk⟩
  · obtain ⟨-, hadm, hu⟩ := exec_eq_next.1 hexec
    have hlegu : Legal u := hu ▸ launch_legal hleg hadm
    obtain ⟨hlegs, h⟩ := (launchPutsInFlight cmd l u hexec).of_run_busy hlegu hrun hbusy
    obtain ⟨hpend, rfl⟩ := h.completes_of_step_done hlegs hstep hdone
    exact ⟨rfl, h.operands, fun k hk => h.destination_of_pending_nil hpend hk, h.source⟩

end Sys2Proof.Machine
end

section
/-!
The family 20_memory.md, who may write a word: the effects of a step (`step_cases`) that change
`PMEM`, and the host's own memory accesses, idle and busy.
-/

namespace Sys2Proof.Machine

open Sys2Proof

/-! ## The causes of a change -/

/-- A write that changes the word at an address is a write of that word. -/
theorem eq_of_putWord_read_ne {s : State} {a b : Nat} {v : Word}
    (h : (s.putWord b v).pmem.read a ≠ s.pmem.read a) : a = b := by
  by_contra hne
  exact h (PMem.read_write_other _ _ hne)

/-- Settles O46: of the effects of a step only the host's memory write and the pixel step write
`PMEM`, one word each. -/
theorem memoryChangesOnlyByPixelStepOrHostWrite :
    Obligations.MemoryChangesOnlyByPixelStepOrHostWrite := by
  intro s t a hs hread
  rcases step_cases hs with ⟨sc, rfl⟩ | ⟨r, w, rest, -, -, -, rfl⟩ |
    ⟨w, i, rest, -, -, -, -, rfl⟩ | ⟨sc, rest, rd, rfl⟩ | ⟨sc, rest, b, v, hscript, hout, -, rfl⟩ |
    ⟨sc, rest, -, rfl⟩ | ⟨-, -, rfl⟩ | ⟨hbusy, k, hk, hpix⟩
  · exact absurd rfl hread
  · exact absurd (by rw [setReg_pmem]) hread
  · exact absurd rfl hread
  · exact absurd rfl hread
  · obtain rfl := eq_of_putWord_read_ne hread
    exact .inr ⟨v, rest, hscript, rfl, hout, PMem.read_write_same _ _ _⟩
  · exact absurd rfl hread
  · exact absurd rfl hread
  · obtain ⟨cmd, v, acc, -, -, -, rfl⟩ := pixelStep_eq_next.1 hpix
    exact .inl ⟨hbusy, k, hk, eq_of_putWord_read_ne hread, rfl⟩

/-! ## The host's own accesses (rules R53, R73) -/

/-- The regions of an idle machine are open to the host. -/
theorem inFlightRegion_idle {s : State} (hidle : s.busy = false) (a : Nat) :
    inFlightRegion s a = false := by
  simp [inFlightRegion, hidle]

/-- The word the host reads is the word written, where there is one. -/
theorem hostWord_of_read {s : State} {a : Nat} {p : Word} (h : s.pmem.read a = some p) :
    hostWord s a = p := by
  simp only [hostWord, h]

/-- A host write that is done replaces its own word and no other. -/
theorem putWord_replaces (s : State) (a : Nat) (v : Word) :
    (s.putWord a v).pmem.read a = some v ∧
      ∀ b, b ≠ a → (s.putWord a v).pmem.read b = s.pmem.read b :=
  ⟨PMem.read_write_same _ _ _, fun _ hb => PMem.read_write_other _ _ hb⟩

/-- Settles O56: each access is `hostMemWrite` or `hostMemRead` on the state the script and the turn
are taken from. -/
theorem hostMemoryAccess : Obligations.HostMemoryAccess := by
  refine ⟨fun s a v rest hidle ha hscript => ?_, fun s a rest hidle ha hscript => ?_,
    fun s a rest turns hbusy ha hturn hscript => ?_,
    fun s a rest hidle ha => ⟨fun hscript => ?_, fun v hscript => ?_⟩,
    fun s a rest turns hbusy ha hturn hscript => ?_⟩
  · have hstep : step s = .next (State.putWord { s with script := rest } a v) := by
      rw [step_idle_action hidle hscript]
      exact hostMemWrite_eq_next.2 ⟨inFlightRegion_idle hidle a, ha, rfl⟩
    obtain ⟨hsame, hother⟩ := putWord_replaces { s with script := rest } a v
    exact ⟨_, hstep, hsame, hother, rfl⟩
  · refine ⟨hostWord s a, ?_, fun p hp => hostWord_of_read hp⟩
    rw [step_idle_action hidle hscript]
    exact hostMemRead_eq_next.2 ⟨ha, rfl⟩
  · refine ⟨hostWord s a, ?_, fun p hp => hostWord_of_read hp⟩
    rw [step_busy_action hbusy hturn hscript]
    exact hostMemRead_eq_next.2 ⟨ha, rfl⟩
  · rw [step_idle_action hidle hscript]
    exact hostMemRead_eq_refused.2 ⟨ha, rfl⟩
  · rw [step_idle_action hidle hscript]
    exact hostMemWrite_eq_refused.2 (.inr ⟨inFlightRegion_idle hidle a, ha, rfl⟩)
  · rw [step_busy_action hbusy hturn hscript]
    exact hostMemRead_eq_refused.2 ⟨ha, rfl⟩

/-- An address in neither region is open to the host. -/
theorem inFlightRegion_outside {s : State} {a : Nat}
    (hsrc : ¬ (s.sb ≤ a ∧ a < s.sb + s.sw * s.sh))
    (hdst : ¬ (s.db ≤ a ∧ a < s.db + s.dw * s.dh)) : inFlightRegion s a = false := by
  rw [← Bool.not_eq_true, inFlightRegion_eq_true]
  exact fun h => h.2.elim hsrc hdst

/-- Settles O57: the three outcomes of `hostMemWrite` with a command in flight. -/
theorem hostWriteWhileBusy : Obligations.HostWriteWhileBusy := by
  intro s a v rest turns hbusy hturn hscript
  rw [step_busy_action hbusy hturn hscript]
  refine ⟨fun hin => ?_, fun hsrc hdst ha => ?_, fun hsrc hdst ha => ?_⟩
  · exact hostMemWrite_eq_refused.2 (.inl ⟨inFlightRegion_eq_true.2 ⟨hbusy, hin⟩, rfl⟩)
  · obtain ⟨hsame, hother⟩ := putWord_replaces { s with script := rest, schedule := turns } a v
    exact ⟨_, hostMemWrite_eq_next.2 ⟨inFlightRegion_outside hsrc hdst, ha, rfl⟩, hsame, hother,
      rfl⟩
  · exact hostMemWrite_eq_refused.2 (.inr ⟨inFlightRegion_outside hsrc hdst, ha, rfl⟩)

end Sys2Proof.Machine
end

section
/-!
The family 30_encoding.md, command words: the decoder and the encoder as inverses of each other, and
the step of an idle core whose host writes a command word to `CMD`.
-/

namespace Sys2Proof.Machine

open Sys2Proof

/-! ## Decode and encode (rules R63, R64) -/

/-- The two fields of format C make up the whole command word (rule R63). -/
theorem fieldZero_append_fieldOp (w : Word) : fieldZero w ++ fieldOp w = w :=
  (BitVec.extractLsb'_append_extractLsb'_eq_extractLsb' (x := w) (start₁ := 0) (len₁ := 2)
    (start₂ := 2) (len₂ := 30) rfl).trans BitVec.extractLsb'_eq_self

/-- The opcode map reads back the `OP` field it gives a command (rule R64). -/
theorem commandOpcode_opcodeCommand (op : BitVec 2) : commandOpcode (opcodeCommand op) = op := by
  revert op
  decide

/-- A command word is decoded by its `OP` field alone, once its bits 31:2 are zero (rule R64). -/
theorem decode_of_fieldZero {w : Word} (h : fieldZero w = 0) :
    decode w = .ok (opcodeCommand (fieldOp w)) := if_pos h

/-- A reserved word is one with bits 31:2 not zero (rule R71 (a)). -/
theorem decode_eq_error {w : Word} : decode w = .error .reservedCommand ↔ fieldZero w ≠ 0 := by
  simp [decode]

theorem fieldZero_encode (i : Instr) : fieldZero (encode i) = 0 := by
  cases i <;> rfl

theorem decode_encode (i : Instr) : decode (encode i) = .ok i := by
  rw [decode_of_fieldZero (fieldZero_encode i)]
  cases i <;> rfl

/-- Every command has exactly one command word. -/
theorem decode_eq_ok {w : Word} {i : Instr} : decode w = .ok i ↔ w = encode i := by
  refine ⟨fun h => ?_, fun h => h ▸ decode_encode i⟩
  by_cases hzero : fieldZero w = 0
  · obtain rfl : opcodeCommand (fieldOp w) = i :=
      Except.ok.inj ((decode_of_fieldZero hzero).symm.trans h)
    calc w = fieldZero w ++ fieldOp w := (fieldZero_append_fieldOp w).symm
      _ = 0#30 ++ commandOpcode (opcodeCommand (fieldOp w)) := by
        rw [hzero, commandOpcode_opcodeCommand]
        rfl
  · rw [decode_eq_error.2 hzero] at h
    cases h

/-- Settles O2: both directions of `decode_eq_ok`; the word of a command has its field `ZERO`
zero. -/
theorem decodeAndEncodeAgree : Obligations.DecodeAndEncodeAgree :=
  ⟨fun i _ => decode_encode i, fun w i h =>
    have hw : w = encode i := decode_eq_ok.1 h
    ⟨hw, hw ▸ fieldZero_encode i⟩⟩

/-- Settles O1: each of the four words is the encoding of its command, and a word that decodes is
one of the four. -/
theorem decodeFollowsOpcodeMap : Obligations.DecodeFollowsOpcodeMap := by
  intro w
  split_ifs with hsquash hcolorrot hblur hexpand
  · exact decode_eq_ok.2 hsquash
  · exact decode_eq_ok.2 hcolorrot
  · exact decode_eq_ok.2 hblur
  · exact decode_eq_ok.2 hexpand
  · cases hdecode : decode w with
    | error e => rfl
    | ok i =>
      have hw : w = encode i := decode_eq_ok.1 hdecode
      cases i with
      | squash => exact absurd hw hsquash
      | colorrot => exact absurd hw hcolorrot
      | blur => exact absurd hw hblur
      | expand => exact absurd hw hexpand

/-- Settles O3: the four words are encodings, and bits 31:2 of the other four are not zero. -/
theorem writtenOutWordsDecode : Obligations.WrittenOutWordsDecode :=
  ⟨decode_encode .squash, decode_encode .colorrot, decode_encode .blur, decode_encode .expand,
    decode_eq_error.2 (by decide), decode_eq_error.2 (by decide), decode_eq_error.2 (by decide),
    decode_eq_error.2 (by decide)⟩

/-! ## The command word written to `CMD` (rules R61, R62) -/

/-- A write to `CMD` of an idle core is the launch attempt with the word written. -/
theorem regWrite_cmd {s : State} (hidle : s.busy = false) (w : Word) :
    regWrite 0x00 w s = commandWrite w s := by
  simp [regWrite, hidle, Reg.offset, Reg.ofOffset]

theorem commandWrite_of_decode {w : Word} {i : Instr} (h : decode w = .ok i) (s : State) :
    commandWrite w s = exec i s := by
  simp only [commandWrite, h]

/-- A reserved word is refused whatever the state (rule R71 (a)). -/
theorem commandWrite_reserved {w : Word} (h : fieldZero w ≠ 0) (s : State) :
    commandWrite w s = .refused .reservedCommand := by
  simp only [commandWrite, decode_eq_error.2 h]

/-- The step of an idle core whose host writes a word to `CMD`. -/
theorem step_commandWrite {s : State} {w : Word} {rest : List Action} (hidle : s.busy = false)
    (hscript : s.script = .wr 0x00 w :: rest) :
    step s = commandWrite w { s with script := rest } := by
  rw [step_idle_action hidle hscript]
  exact regWrite_cmd (s := { s with script := rest }) hidle w

/-- Settles O4: the step is the command write, which runs the decoded command. -/
theorem stepRunsDecodedCommand : Obligations.StepRunsDecodedCommand :=
  fun _ _ _ _ hidle hscript hdecode =>
    (step_commandWrite hidle hscript).trans (commandWrite_of_decode hdecode _)

/-- A row of the opcode table decodes as the command word it stands for. -/
theorem decodeTableWord_eq_some {nbits n : Nat} {i : Instr} :
    decodeTableWord nbits n = some i ↔ decode (tableWord nbits n) = .ok i := by
  simp only [decodeTableWord]
  split <;> simp_all

/-- On an idle machine the word is placed at the head of the script, and nothing else changes
(log entry 15). -/
theorem withFetchWord_idle {s : State} (hidle : s.busy = false) (nbits n : Nat) :
    s.withFetchWord nbits n = { s with script := .wr 0x00 (tableWord nbits n) :: s.script } := by
  simp [State.withFetchWord, hidle, Reg.offset]

/-- Settles O5: the word placed is at the head of the script, and taking it off gives the state
back. -/
theorem fetchWordIsRunNext : Obligations.FetchWordIsRunNext := by
  intro s n i hidle _ hdecode
  rw [withFetchWord_idle hidle]
  exact stepRunsDecodedCommand { s with script := .wr 0x00 (tableWord 32 n) :: s.script } _ i
    s.script hidle rfl (decodeTableWord_eq_some.1 hdecode)

/-- Settles O6: the step is the command write, which refuses a reserved word. -/
theorem reservedCommandIsRefused : Obligations.ReservedCommandIsRefused :=
  fun _ _ _ hidle hscript hreserved =>
    (step_commandWrite hidle hscript).trans (commandWrite_reserved hreserved _)

end Sys2Proof.Machine
end

section
/-!
The family 30_encoding.md, the launch: a command of an idle core launches exactly where its
preconditions hold, and a launch sets four fields.
-/

namespace Sys2Proof.Machine

open Sys2Proof

/-! ## Admission (rules R62, R66, R67) -/

/-- Under its preconditions a command of an idle core launches. -/
theorem exec_admitted {cmd : Instr} {s : State} (hidle : s.busy = false)
    (hpre : Preconditions cmd s) : exec cmd s = .next (launch cmd (s.dw * s.dh) s) :=
  exec_eq_next.2 ⟨hidle, admits_iff_preconditions.2 hpre, rfl⟩

/-- Without its preconditions a command of an idle core is refused. -/
theorem exec_not_admitted {cmd : Instr} {s : State} (hidle : s.busy = false)
    (hpre : ¬ Preconditions cmd s) : exec cmd s = .refused .precondition := by
  have hadm : admits cmd s = false := by
    rw [← Bool.not_eq_true, admits_iff_preconditions]
    exact hpre
  rw [exec_eq_launchAttempt]
  exact launchAttempt_eq_refused.2 (.inr ⟨hidle, hadm, rfl⟩)

/-- The two outcomes of a command of an idle core. -/
theorem exec_of_idle (cmd : Instr) (s : State) (hidle : s.busy = false) :
    (Preconditions cmd s → exec cmd s = .next (launch cmd (s.dw * s.dh) s)) ∧
      (¬ Preconditions cmd s → exec cmd s = .refused .precondition) :=
  ⟨exec_admitted hidle, exec_not_admitted hidle⟩

/-- Settles O7: the two outcomes of `exec_of_idle`. -/
theorem squashLaunches : Obligations.SquashLaunches := exec_of_idle .squash

/-- Settles O8: the two outcomes of `exec_of_idle`. -/
theorem colorrotLaunches : Obligations.ColorrotLaunches := exec_of_idle .colorrot

/-- Settles O9: the two outcomes of `exec_of_idle`. -/
theorem blurLaunches : Obligations.BlurLaunches := exec_of_idle .blur

/-- Settles O10: the two outcomes of `exec_of_idle`. -/
theorem expandLaunches : Obligations.ExpandLaunches := exec_of_idle .expand

/-- `P-DIM`: the destination of an admitted command has a pixel (rules R66, R67). -/
theorem Preconditions.destination_pos {cmd : Instr} {s : State} (h : Preconditions cmd s) :
    0 < s.dw * s.dh := by
  obtain ⟨⟨-, -, hdw, hdh, -⟩, -⟩ := h
  exact Nat.mul_pos hdw hdh

/-- Settles O11: the state answered is the launched one. -/
theorem launchChangesOnlyProgressState : Obligations.LaunchChangesOnlyProgressState := by
  intro cmd s t h
  obtain ⟨-, hadm, rfl⟩ := exec_eq_next.1 h
  have hpre : Preconditions cmd s := admits_iff_preconditions.1 hadm
  have hpending : List.range (s.dw * s.dh) ≠ [] := by simpa using hpre.destination_pos.ne'
  exact ⟨hpre, rfl, fun _ => List.mem_range, hpending, rfl, rfl, sameOperands_launch ..,
    fun _ => rfl, rfl, rfl, rfl, rfl, rfl, rfl⟩

end Sys2Proof.Machine
end

section
/-!
The family 30_encoding.md, the register port: what is refused there, and `WAIT`.
-/

namespace Sys2Proof.Machine

open Sys2Proof

/-! ## Refused accesses (rules R61, R71 (b), R145) -/

/-- While `BUSY = 1` every write but to `STATUS` is refused. -/
theorem regWrite_busy {s : State} {off : Nat} (hbusy : s.busy = true)
    (hoff : off ≠ Reg.offset .status) (w : Word) :
    regWrite off w s = .refused .writeWhileBusy := by
  simp [regWrite, hbusy, hoff]

/-- A write of an idle core to the offset of no register is refused. -/
theorem regWrite_reserved {s : State} {off : Nat} (hidle : s.busy = false)
    (hoff : Reg.ofOffset off = none) (w : Word) :
    regWrite off w s = .refused .reservedOffset := by
  have hstatus : off ≠ Reg.offset .status := Reg.ofOffset_eq_none.1 hoff .status
  simp [regWrite, hidle, hoff, hstatus]

/-- A read at the offset of no register is refused, busy or not. -/
theorem regRead_reserved {off : Nat} (hoff : Reg.ofOffset off = none) (s : State) :
    regRead off s = .refused .reservedOffset := by
  simp only [regRead, hoff]

/-- Settles O54: the host's turn is the register write, refused by `regWrite_busy`. -/
theorem writeWhileBusyIsRefused : Obligations.WriteWhileBusyIsRefused := by
  intro s off w rest turns hbusy hturn hscript hoff
  rw [step_busy_action hbusy hturn hscript]
  exact regWrite_busy (s := { s with script := rest, schedule := turns }) hbusy hoff w

/-- Settles O55: a reserved offset is that of no register; a partial access is refused at every
offset. -/
theorem reservedOffsetIsRefused : Obligations.ReservedOffsetIsRefused := by
  refine ⟨fun s off rest hidle =>
      ⟨fun hoff => ⟨fun hscript => ?_, fun w hscript => ?_⟩, fun hscript => ?_⟩,
    fun s off rest turns hbusy hturn => ⟨fun hoff hscript => ?_, fun hscript => ?_⟩⟩
  · rw [step_idle_action hidle hscript]
    exact regRead_reserved (Reg.ofOffset_eq_none_iff_reserved.2 hoff) _
  · rw [step_idle_action hidle hscript]
    exact regWrite_reserved (s := { s with script := rest }) hidle
      (Reg.ofOffset_eq_none_iff_reserved.2 hoff) w
  · rw [step_idle_action hidle hscript]
    rfl
  · rw [step_busy_action hbusy hturn hscript]
    exact regRead_reserved (Reg.ofOffset_eq_none_iff_reserved.2 hoff) _
  · rw [step_busy_action hbusy hturn hscript]
    rfl

/-! ## `WAIT` (rules R16, R74) -/

/-- With `BUSY = 0` and `DONE = 1` a `WAIT` reads 2, and it is done with. -/
theorem waitStep_done {s : State} (hidle : s.busy = false) (hdone : s.done = true) :
    waitStep s = { s with readData := 2 } := by
  have hword : statusWord s = 2 := by simp [statusWord, hidle, hdone]
  simp only [waitStep_eq, hword, hdone, if_true]

/-- With `DONE = 0` a `WAIT` reads `BUSY`, and stays at the head of the script. -/
theorem waitStep_not_done {s : State} (hdone : s.done = false) :
    waitStep s =
      { s with readData := if s.busy then 1 else 0, script := .wait :: s.script } := by
  have hword : statusWord s = if s.busy then 1 else 0 := by
    cases hbusy : s.busy <;> simp [statusWord, hbusy, hdone]
  simp only [waitStep_eq, hword, hdone, Bool.false_eq_true, if_false]

/-- Settles O58: `WAIT` is one read of `STATUS`, and leaves the script where `DONE` is read. -/
theorem waitEndsWhenDone : Obligations.WaitEndsWhenDone := by
  refine ⟨fun s rest hidle hscript => ⟨fun hdone => ?_, fun hdone => ?_⟩,
    fun s rest turns hbusy hdone hturn hscript => ?_⟩
  · rw [step_idle_action hidle hscript, doAction,
      waitStep_done (s := { s with script := rest }) hidle hdone]
  · rw [step_idle_action hidle hscript, doAction,
      waitStep_not_done (s := { s with script := rest }) hdone]
    simp [hidle, hscript]
  · rw [step_busy_action hbusy hturn hscript, doAction,
      waitStep_not_done (s := { s with script := rest, schedule := turns }) hdone]
    simp [hbusy, hscript]

end Sys2Proof.Machine
end

section
/-!
The family 30_encoding.md, the pixel written: what each per-pixel function answers, in the terms of
the statements (`sourceWord`, `IsBlurred`, `expandWord`).
-/

namespace Sys2Proof.Machine

open Sys2Proof

/-! ## Channels of a packed pixel (rules R80, R81) -/

/-- A channel is the 8-bit field at its place in the word. -/
theorem decodeCh_toNat (p : Word) (which : ChannelSel) :
    (decodeCh p which).toNat = p.toNat / 2 ^ (24 - 8 * which.code) % 256 := by
  have hmask : ∀ n : Nat, n &&& 255 = n % 256 := fun n => Nat.and_two_pow_sub_one_eq_mod n 8
  simp [decodeCh, hmask, Nat.shiftRight_eq_div_pow]

/-- The number of two fields put together. -/
theorem toNat_append_eq_add {m n : Nat} (x : BitVec m) (y : BitVec n) :
    (x ++ y).toNat = x.toNat * 2 ^ n + y.toNat := by
  rw [BitVec.toNat_append, ← Nat.shiftLeft_add_eq_or_of_lt y.isLt, Nat.shiftLeft_eq]

/-- The number of a packed pixel. -/
theorem encodePx_toNat (r g b a : Channel) :
    (encodePx r g b a).toNat =
      r.toNat * 2 ^ 24 + g.toNat * 2 ^ 16 + b.toNat * 2 ^ 8 + a.toNat := by
  simp only [encodePx, toNat_append_eq_add]
  ring

@[simp] theorem redOf_encodePx (r g b a : Channel) : redOf (encodePx r g b a) = r := by
  apply BitVec.eq_of_toNat_eq
  simp only [redOf, decodeCh_toNat, encodePx_toNat, ChannelSel.code]
  omega
@[simp] theorem greenOf_encodePx (r g b a : Channel) : greenOf (encodePx r g b a) = g := by
  apply BitVec.eq_of_toNat_eq
  simp only [greenOf, decodeCh_toNat, encodePx_toNat, ChannelSel.code]
  omega
@[simp] theorem blueOf_encodePx (r g b a : Channel) : blueOf (encodePx r g b a) = b := by
  apply BitVec.eq_of_toNat_eq
  simp only [blueOf, decodeCh_toNat, encodePx_toNat, ChannelSel.code]
  omega
@[simp] theorem alphaOf_encodePx (r g b a : Channel) : alphaOf (encodePx r g b a) = a := by
  apply BitVec.eq_of_toNat_eq
  simp only [alphaOf, decodeCh_toNat, encodePx_toNat, ChannelSel.code]
  omega

/-! ## Source pixels (rules R65, R90) -/

theorem sourceWord_of_read {s : State} {row col : Nat} {p : Word}
    (h : s.pmem.read (s.sb + row * s.sw + col) = some p) : sourceWord s row col = p := by
  simp [sourceWord, h]

/-- What `PIXEL_AT` reads in the source image is the source word. -/
theorem pixelAt_eq_sourceWord {s : State} {row col : Int} {p : Word}
    (h : pixelAt s (srcImage s) row col = .next p) : sourceWord s row.toNat col.toNat = p := by
  simp only [pixelAt] at h
  split at h
  · exact sourceWord_of_read (memRead_eq_next.1 h).2
  · cases h

theorem src_eq_sourceWord {s : State} {row col : Nat} {p : Word} (h : src s row col = .next p) :
    sourceWord s row col = p :=
  pixelAt_eq_sourceWord h

/-! ## EXPAND (rule R126) -/

theorem srcAvg2_eq_next {s : State} {r1 c1 r2 c2 : Nat} {v : Word}
    (h : srcAvg2 s r1 c1 r2 c2 = .next v) : avg2 (sourceWord s r1 c1) (sourceWord s r2 c2) = v := by
  simp only [srcAvg2, andThen_eq_next, Host.Outcome.next.injEq] at h
  obtain ⟨p1, h1, p2, h2, hv⟩ := h
  rw [src_eq_sourceWord h1, src_eq_sourceWord h2, hv]

theorem srcAvg4_eq_next {s : State} {r c : Nat} {v : Word} (h : srcAvg4 s r c = .next v) :
    avg4 (sourceWord s r c) (sourceWord s r (c + 1)) (sourceWord s (r + 1) c)
      (sourceWord s (r + 1) (c + 1)) = v := by
  simp only [srcAvg4, andThen_eq_next, Host.Outcome.next.injEq] at h
  obtain ⟨p1, h1, p2, h2, p3, h3, p4, h4, hv⟩ := h
  rw [src_eq_sourceWord h1, src_eq_sourceWord h2, src_eq_sourceWord h3, src_eq_sourceWord h4, hv]

/-- The nine rows of the table by what they use: a right neighbour, a lower one, both or none. -/
theorem expandWord_eq (s : State) (row col : Nat) :
    expandWord s row col =
      if col % 2 = 1 ∧ col / 2 + 1 < s.sw then
        if row % 2 = 1 ∧ row / 2 + 1 < s.sh then
          avg4 (sourceWord s (row / 2) (col / 2)) (sourceWord s (row / 2) (col / 2 + 1))
            (sourceWord s (row / 2 + 1) (col / 2)) (sourceWord s (row / 2 + 1) (col / 2 + 1))
        else avg2 (sourceWord s (row / 2) (col / 2)) (sourceWord s (row / 2) (col / 2 + 1))
      else if row % 2 = 1 ∧ row / 2 + 1 < s.sh then
        avg2 (sourceWord s (row / 2) (col / 2)) (sourceWord s (row / 2 + 1) (col / 2))
      else sourceWord s (row / 2) (col / 2) := by
  rcases Nat.mod_two_eq_zero_or_one row with hrow | hrow <;>
    rcases Nat.mod_two_eq_zero_or_one col with hcol | hcol <;>
    grind [expandWord]

/-- `OUT_EXPAND` answers the pixel of the table. -/
theorem outExpand_eq_next {s : State} {row col : Nat} {v : Word}
    (h : outExpand s row col = .next v) : expandWord s row col = v := by
  rw [outExpand_eq] at h
  rw [expandWord_eq]
  split_ifs at h ⊢
  · exact srcAvg4_eq_next h
  · exact srcAvg2_eq_next h
  · exact srcAvg2_eq_next h
  · exact src_eq_sourceWord h

/-! ## BLUR (rules R95, R112 to R114) -/

/-- The sum that `ACC` holds of one channel (rule R26). -/
def Acc.sum (acc : Acc) : ChannelSel → Nat
  | .red => acc.sumR
  | .green => acc.sumG
  | .blue => acc.sumB
  | .alpha => acc.sumA

theorem Acc.sum_addPixel (acc : Acc) (p : Word) (which : ChannelSel) :
    (acc.addPixel p).sum which = acc.sum which + (decodeCh p which).toNat := by
  cases which <;> rfl

theorem Acc.sum_zero (which : ChannelSel) : Acc.zero.sum which = 0 := by
  cases which <;> rfl

/-- Accumulating over positions in bounds adds each one's channel to the sum. -/
theorem accumAll_sum {s : State} {positions : List (Int × Int)}
    (hinb : ∀ rc ∈ positions, inb (srcImage s) rc.1 rc.2 = true) {acc acc' : Acc}
    (h : accumAll s (srcImage s) positions acc = .next acc') (which : ChannelSel) :
    acc'.sum which = acc.sum which +
      ((positions.map fun rc => (rc.1.toNat, rc.2.toNat)).map fun rc =>
        (decodeCh (sourceWord s rc.1 rc.2) which).toNat).sum := by
  induction positions generalizing acc with
  | nil =>
    obtain rfl : acc = acc' := by simpa [accumAll] using h
    rfl
  | cons rc rest ih =>
    obtain ⟨hhead, hrest⟩ := List.forall_mem_cons.1 hinb
    obtain ⟨acc₁, hone, hall⟩ := andThen_eq_next.1 h
    rcases accAccum_eq_next.1 hone with ⟨-, p, hp, rfl⟩ | ⟨hout, -⟩
    · rw [ih hrest hall, Acc.sum_addPixel, List.map_cons, List.map_cons, List.sum_cons,
        pixelAt_eq_sourceWord hp, Nat.add_assoc]
    · simp [hhead] at hout

/-- The clamped window in natural coordinates is a translated rectangle. -/
theorem map_clampedWindow (img : Image) (d row col : Nat) :
    (clampedWindow img d row col).map (fun p => (p.1.toNat, p.2.toNat)) =
      (List.range (min (img.height - 1) (row + d) - (row - d) + 1) ×ˢ
        List.range (min (img.width - 1) (col + d) - (col - d) + 1)).map
          (fun ij => (row - d + ij.1, col - d + ij.2)) := by
  simp only [clampedWindow, SProd.sprod, List.product, List.map_flatMap, List.map_map,
    Function.comp_def, Int.toNat_natCast]

/-- The clamped window visits each position of the set `S` once (rules R112, R113). -/
theorem clampedWindow_perm_blurSet {s : State} {row col : Nat} (hrow : row < s.sh)
    (hcol : col < s.sw) :
    ((clampedWindow (srcImage s) s.dist row col).map fun p => (p.1.toNat, p.2.toNat)).Perm
      (blurSet s row col) := by
  have hwindow : ((clampedWindow (srcImage s) s.dist row col).map
      fun p => (p.1.toNat, p.2.toNat)).Nodup := by
    rw [map_clampedWindow]
    refine (List.nodup_range.product List.nodup_range).map fun x y hxy => ?_
    simpa [Prod.ext_iff] using hxy
  have hset : (blurSet s row col).Nodup := (List.nodup_range.product List.nodup_range).filter _
  exact (List.perm_ext_iff_of_nodup hwindow hset).2 fun rc => mem_map_clampedWindow hrow hcol

/-- The mean of the statement is the quotient of what the accumulation over the clamped window
leaves in `ACC`. -/
theorem blurMean_eq {s : State} {row col : Nat} (hrow : row < s.sh) (hcol : col < s.sw) {acc : Acc}
    (h : accumAll s (srcImage s) (clampedWindow (srcImage s) s.dist row col) Acc.zero = .next acc)
    (which : ChannelSel) : blurMean s row col which = acc.sum which / acc.count := by
  have hinb := fun rc => inb_of_mem_clampedWindow hrow hcol (rc := rc)
  have hperm := clampedWindow_perm_blurSet hrow hcol
  have hsum : acc.sum which = ((blurSet s row col).map fun rc =>
      (decodeCh (sourceWord s rc.1 rc.2) which).toNat).sum := by
    rw [accumAll_sum hinb h, Acc.sum_zero, Nat.zero_add, (hperm.map _).sum_eq]
  have hcount : acc.count = (blurSet s row col).length := by
    rw [accumAll_count hinb h, ← hperm.length_eq, List.length_map]
    exact Nat.zero_add _
  rw [hsum, hcount, blurMean]

/-- `OUT_BLUR` answers the blurred pixel. -/
theorem outBlur_eq_next {s : State} {row col : Nat} {v : Word} {acc : Acc}
    (h : outBlur s row col = .next (v, acc)) : IsBlurred s row col v := by
  simp only [outBlur, blurOver, andThen_eq_next, Host.Outcome.next.injEq, Prod.mk.injEq] at h
  obtain ⟨acc, haccum, q, hfinal, p, hsrc, rfl, rfl⟩ := h
  obtain ⟨hrow, hcol, -, -⟩ := src_eq_next.1 hsrc
  obtain ⟨-, r, g, b, a, hr, hg, hb, -, rfl⟩ := accFinal_eq_next.1 hfinal
  have hmean := blurMean_eq hrow hcol haccum
  simp only [IsBlurred, redOf_encodePx, greenOf_encodePx, blueOf_encodePx, alphaOf_encodePx,
    src_eq_sourceWord hsrc, hmean, and_true]
  exact ⟨hr, hg, hb⟩

/-! ## Every command (rule R68) -/

/-- A word is the output pixel of a command at a destination position, as the statements give it. -/
def IsOutput (cmd : Instr) (s : State) (row col : Nat) (v : Word) : Prop :=
  match cmd with
  | .squash => v = sourceWord s (row * s.yf) (col * s.xf)
  | .colorrot => v = rot (sourceWord s row col)
  | .blur => IsBlurred s row col v
  | .expand => v = expandWord s row col

/-- `OUT_cmd` answers the output pixel of the command. -/
theorem outPixel_eq_next {cmd : Instr} {s : State} {row col : Nat} {v : Word} {acc : Acc}
    (h : outPixel cmd s row col = .next (v, acc)) : IsOutput cmd s row col v := by
  cases cmd with
  | blur => exact outBlur_eq_next h
  | squash =>
    obtain ⟨p, hp, heq⟩ := andThen_eq_next.1 h
    obtain ⟨rfl, -⟩ : p = v ∧ s.acc = acc := by simpa using heq
    exact (src_eq_sourceWord hp).symm
  | colorrot =>
    obtain ⟨p, hp, heq⟩ := andThen_eq_next.1 h
    obtain ⟨rfl, -⟩ : p = v ∧ s.acc = acc := by simpa using heq
    obtain ⟨q, hq, hrot⟩ := andThen_eq_next.1 hp
    obtain rfl : rot q = p := by simpa using hrot
    exact congrArg rot (src_eq_sourceWord hq).symm
  | expand =>
    obtain ⟨p, hp, heq⟩ := andThen_eq_next.1 h
    obtain ⟨rfl, -⟩ : p = v ∧ s.acc = acc := by simpa using heq
    exact (outExpand_eq_next hp).symm

/-- The pixel of a linear index is that of its row and column (rules R91, R92). -/
theorem outIndex_eq_next {cmd : Instr} {s : State} {k : Nat} {v : Word} {acc : Acc}
    (h : outIndex cmd s k = .next (v, acc)) : IsOutput cmd s (k / s.dw) (k % s.dw) v := by
  obtain ⟨row, hrow, hrest⟩ := andThen_eq_next.1 h
  obtain ⟨col, hcol, hout⟩ := andThen_eq_next.1 hrest
  obtain ⟨-, rfl⟩ := rowOf_eq_next.1 hrow
  obtain ⟨-, rfl⟩ := colOf_eq_next.1 hcol
  exact outPixel_eq_next hout

/-- The channels of a rotated pixel (rule R106). -/
theorem rot_channels (p : Word) :
    redOf (rot p) = blueOf p ∧ greenOf (rot p) = redOf p ∧ blueOf (rot p) = greenOf p ∧
      alphaOf (rot p) = alphaOf p := by
  simp [rot]

end Sys2Proof.Machine
end

section
/-!
The family 30_encoding.md, the core's step: the completion step, and the pixel step of each command
with its frame.
-/

namespace Sys2Proof.Machine

open Sys2Proof

/-! ## Which step the core takes (rules R68, R69) -/

/-- The core's turn with a pending index to take is the pixel step for that index. -/
theorem step_core_takes {s : State} {n k : Nat} {rest : List Turn} (hbusy : s.busy = true)
    (hturn : s.schedule = .core n :: rest) (hk : pickIndex s.pending n = some k) :
    step s = pixelStep k { s with schedule := rest } := by
  rw [step_busy_core hbusy hturn]
  simp only [coreStep, hk]

/-- Settles O12: every pending index is named by some choice (`pickIndex_surj`). -/
theorem anyPendingIndexMayBeNext : Obligations.AnyPendingIndexMayBeNext := by
  intro s k hbusy hk
  obtain ⟨n, hn⟩ := pickIndex_surj hk
  exact ⟨n, fun rest => step_core_takes (s := { s with schedule := .core n :: rest }) hbusy rfl hn⟩

/-- Settles O17: with nothing pending there is no index to take. -/
theorem completionStep : Obligations.CompletionStep :=
  fun _ _ _ hbusy hpend hturn => step_core_completes hbusy hturn (pickIndex_eq_none.2 hpend)

/-- Settles O18: the core completes, or takes a pending index, whose pixel step needs only its
source words. -/
theorem coreStepCannotFail : Obligations.CoreStepCannotFail := by
  intro s n rest h hbusy hturn hw
  cases hk : pickIndex s.pending n with
  | none => exact ⟨_, step_core_completes hbusy hturn hk⟩
  | some k =>
    obtain ⟨cmd, hlatch, -⟩ := h.busy_admitted hbusy
    have hneeds := step_needs h hlatch (corePicks_of_turn hbusy hturn hk)
    exact hneeds.answers (readsWritten_iff.1 (hw cmd k hlatch hk))

/-! ## The pixel step and its frame (rule R68) -/

/-- The state after the pixel step for `k` that answers the pixel `v` and leaves `acc` in `ACC`. -/
def State.afterPixel (s : State) (k : Nat) (v : Word) (acc : Acc) : State :=
  ((s.withAcc acc).putWord (s.db + k) v).dropPending k

/-- In a legal state the pixel step for a pending index whose source words are written writes
`OUT_cmd`. -/
theorem pixelStep_writes {cmd : Instr} {s : State} {k : Nat} (h : Legal s) (hbusy : s.busy = true)
    (hlatch : s.oplatch = some cmd) (hk : k ∈ s.pending) (hw : ReadsWritten cmd s k) :
    ∃ v acc, outIndex cmd s k = .next (v, acc) ∧ pixelStep k s = .next (s.afterPixel k v acc) := by
  obtain ⟨t, hstep⟩ := (pixelStep_needs h hbusy hlatch hk).answers (readsWritten_iff.1 hw)
  obtain ⟨cmd', v, acc, hlatch', hout, -, ht⟩ := pixelStep_eq_next.1 hstep
  obtain rfl : cmd = cmd' := Option.some.inj (hlatch.symm.trans hlatch')
  exact ⟨v, acc, hout, by rw [hstep, ht]; rfl⟩

/-- The effect of a step of `s` that is the pixel step of `cmd` for `k`: the destination word is the
output pixel, and besides it only `PENDING`, the schedule and, for `BLUR`, `ACC` change. -/
structure PixelStepEffect (cmd : Instr) (s : State) (k : Nat) (rest : List Turn) (v : Word)
    (t : State) : Prop where
  answers : step s = .next t
  word : t.pmem.read (s.db + k) = some v
  output : IsOutput cmd s (k / s.dw) (k % s.dw) v
  others : ∀ a, a ≠ s.db + k → t.pmem.read a = s.pmem.read a
  acc : cmd ≠ .blur → t.acc = s.acc
  frame : t = { s with
    pmem := t.pmem, pending := s.pending.filter (· != k), schedule := rest, acc := t.acc }

/-- The step in which the core takes an index whose source words are written. -/
theorem exists_pixelStepEffect {cmd : Instr} {s : State} {n k : Nat} {rest : List Turn}
    (h : Legal s) (hbusy : s.busy = true) (hlatch : s.oplatch = some cmd)
    (hturn : s.schedule = .core n :: rest) (hk : pickIndex s.pending n = some k)
    (hw : ReadsWritten cmd s k) : ∃ t v, PixelStepEffect cmd s k rest v t := by
  obtain ⟨v, acc, hout, hpixel⟩ := pixelStep_writes (s := { s with schedule := rest })
    (withClock_legal h rest s.script s.readData) hbusy hlatch (pickIndex_mem hk) hw
  have hout' : outIndex cmd s k = .next (v, acc) :=
    (outIndex_clock cmd s s.script rest k).symm.trans hout
  obtain ⟨hword, hothers⟩ := putWord_replaces s (s.db + k) v
  exact ⟨_, v, {
    answers := (step_core_takes hbusy hturn hk).trans hpixel
    word := hword
    output := outIndex_eq_next hout'
    others := hothers
    acc := outIndex_acc hout'
    frame := rfl }⟩

/-- Where `ACC` is not used it is part of the frame. -/
theorem PixelStepEffect.frame_acc {cmd : Instr} {s t : State} {k : Nat} {rest : List Turn}
    {v : Word} (h : PixelStepEffect cmd s k rest v t) (hcmd : cmd ≠ .blur) :
    t = { s with pmem := t.pmem, pending := s.pending.filter (· != k), schedule := rest } := by
  have hframe := h.frame
  rw [h.acc hcmd] at hframe
  exact hframe

/-- Settles O15: the output pixel of `BLUR` is the blurred one (`outBlur_eq_next`). -/
theorem blurPixelStep : Obligations.BlurPixelStep := by
  intro s n k rest h hbusy hlatch hturn hk hw
  obtain ⟨t, v, heffect⟩ := exists_pixelStepEffect h hbusy hlatch hturn hk hw
  exact ⟨t, v, heffect.answers, heffect.word, heffect.output, heffect.others, heffect.frame⟩

/-- Settles O16: the output pixel of `EXPAND` is that of the table (`outExpand_eq_next`). -/
theorem expandPixelStep : Obligations.ExpandPixelStep := by
  intro s n k rest h hbusy hlatch hturn hk hw
  obtain ⟨t, v, heffect⟩ := exists_pixelStepEffect h hbusy hlatch hturn hk hw
  obtain rfl : v = expandWord s (k / s.dw) (k % s.dw) := heffect.output
  exact ⟨t, heffect.answers, heffect.word, heffect.others, heffect.frame_acc (by decide)⟩

/-- Settles O13: the one word `SQUASH` needs is the one given. -/
theorem squashPixelStep : Obligations.SquashPixelStep := by
  intro s n k rest p h hbusy hlatch hturn hk hp
  have hw : ReadsWritten .squash s k := List.forall_mem_singleton.2 ⟨p, hp⟩
  obtain ⟨t, v, heffect⟩ := exists_pixelStepEffect h hbusy hlatch hturn hk hw
  obtain rfl : v = p := heffect.output.trans (sourceWord_of_read hp)
  exact ⟨t, heffect.answers, heffect.word, heffect.others, heffect.frame_acc (by decide)⟩

/-- With source and destination of one width the linear index is the same in both (rule R105). -/
theorem source_addr_of_same_width {s : State} (h : s.dw = s.sw) (k : Nat) :
    s.sb + k / s.dw * s.sw + k % s.dw = s.sb + k := by
  rw [Nat.add_assoc, ← h, Nat.div_add_mod']

/-- The preconditions of the command in flight hold in a legal state. -/
theorem Legal.preconditions_of_busy {s : State} (h : Legal s) (hbusy : s.busy = true) {cmd : Instr}
    (hlatch : s.oplatch = some cmd) : Preconditions cmd s := by
  obtain ⟨cmd', hlatch', hadm⟩ := h.busy_admitted hbusy
  obtain rfl : cmd = cmd' := Option.some.inj (hlatch.symm.trans hlatch')
  exact admits_iff_preconditions.1 hadm

/-- Settles O14: under `P-SAME` the one word `COLORROT` needs is the one given. -/
theorem colorrotPixelStep : Obligations.ColorrotPixelStep := by
  intro s n k rest p h hbusy hlatch hturn hk hp
  obtain ⟨-, hwidth, -⟩ := h.preconditions_of_busy hbusy hlatch
  rw [← source_addr_of_same_width hwidth] at hp
  have hw : ReadsWritten .colorrot s k := List.forall_mem_singleton.2 ⟨p, hp⟩
  obtain ⟨t, v, heffect⟩ := exists_pixelStepEffect h hbusy hlatch hturn hk hw
  obtain rfl : v = rot p := heffect.output.trans (congrArg rot (sourceWord_of_read hp))
  obtain ⟨hred, hgreen, hblue, halpha⟩ := rot_channels p
  exact ⟨t, rot p, heffect.answers, heffect.word, hred, hgreen, hblue, halpha, heffect.others,
    heffect.frame_acc (by decide)⟩

end Sys2Proof.Machine
end

section
/-!
The family 30_encoding.md, the whole command: from a launch on, with the core alone acting, every
pixel step answers and takes one index off `PENDING`, so `dw*dh` of them and the completion step
lead to the whole destination image.
-/

namespace Sys2Proof.Machine

open Sys2Proof

/-! ## A written source has all that any output pixel uses (rules R66, R163 (1)) -/

/-- The preconditions keep the positions that an output pixel uses inside the source image. -/
theorem sourceReads_inb {cmd : Instr} {s : State} (hpre : Preconditions cmd s) {row col : Nat}
    (hrow : row < s.dh) (hcol : col < s.dw) {rc : Nat × Nat}
    (hrc : rc ∈ sourceReads cmd s row col) : rc.1 < s.sh ∧ rc.2 < s.sw := by
  obtain ⟨-, hcmd⟩ := hpre
  cases cmd with
  | squash =>
    obtain ⟨hxf, hyf, hwidth, hheight⟩ := hcmd
    obtain rfl := List.mem_singleton.1 hrc
    exact ⟨(Nat.mul_lt_mul_of_pos_right hrow hyf).trans_le hheight,
      (Nat.mul_lt_mul_of_pos_right hcol hxf).trans_le hwidth⟩
  | colorrot =>
    obtain ⟨hwidth, hheight⟩ := hcmd
    obtain rfl := List.mem_singleton.1 hrc
    exact ⟨hheight ▸ hrow, hwidth ▸ hcol⟩
  | blur => exact (mem_blurSet.1 hrc).1
  | expand =>
    obtain ⟨hwidth, hheight⟩ := hcmd
    simp only [sourceReads] at hrc
    split_ifs at hrc with hacross hdown hdown <;>
      simp only [List.mem_cons, List.not_mem_nil, or_false] at hrc <;> grind

/-- Where the whole source is written, so are the words that an output pixel uses. -/
theorem SourceWritten.readsWritten {cmd : Instr} {s : State} (hsrc : SourceWritten s)
    (hpre : Preconditions cmd s) {k : Nat} (hk : k < s.dw * s.dh) : ReadsWritten cmd s k := by
  intro rc hrc
  have hwidth : 0 < s.dw := Nat.pos_of_mul_pos_right (Nat.zero_lt_of_lt hk)
  obtain ⟨hr, hc⟩ := sourceReads_inb hpre (Nat.div_lt_of_lt_mul hk) (Nat.mod_lt k hwidth) hrc
  have hlimit : s.sb + rc.1 * s.sw + rc.2 < s.sb + s.sw * s.sh :=
    Image.addr_lt_limit (img := srcImage s) hr hc
  exact hsrc _ (by omega) hlimit

/-- A command in flight finds its source written where the launch did (rule R53). -/
theorem InFlight.sourceWritten {cmd : Instr} {l s : State} (h : InFlight cmd l s)
    (hsrc : SourceWritten l) : SourceWritten s := by
  obtain ⟨hsb, hsw, hsh, -⟩ := h.operands.values
  intro a ha ha'
  rw [hsb] at ha
  rw [hsb, hsw, hsh] at ha'
  rw [h.source a ha ha']
  exact hsrc a ha ha'

/-! ## The core alone acts -/

/-- `s` is on the way of the command `cmd` launched at `l`, and the core alone has acted and will
act: besides what `InFlight` says, no word outside the destination has changed. -/
structure CoreAlone (cmd : Instr) (l s : State) : Prop where
  legal : Legal s
  inFlight : InFlight cmd l s
  outside : ∀ a, ¬ (l.db ≤ a ∧ a < l.db + l.dw * l.dh) → s.pmem.read a = l.pmem.read a
  acc : cmd ≠ .blur → s.acc = l.acc
  turns : ∃ picks : List Nat, s.schedule = picks.map Turn.core

/-- What the core alone makes of the command `cmd` launched at `l`. -/
structure Completed (cmd : Instr) (l t : State) : Prop where
  legal : Legal t
  idle : t.busy = false
  done : t.done = true
  pending : t.pending = []
  operands : SameOperands l t
  destination : ∀ k, k < l.dw * l.dh →
    ∃ v acc, outIndex cmd l k = .next (v, acc) ∧ t.pmem.read (l.db + k) = some v
  outside : ∀ a, ¬ (l.db ≤ a ∧ a < l.db + l.dw * l.dh) → t.pmem.read a = l.pmem.read a
  acc : cmd ≠ .blur → t.acc = l.acc

theorem CoreAlone.withTurns {cmd : Instr} {l s : State} (h : CoreAlone cmd l s)
    (picks : List Nat) : CoreAlone cmd l { s with schedule := picks.map Turn.core } :=
  { h with
    legal := withClock_legal h.legal _ s.script s.readData
    inFlight := h.inFlight.withClock _ s.script s.readData
    turns := ⟨picks, rfl⟩ }

/-- A launch whose schedule has turns of the core alone. -/
theorem launch_coreAlone {cmd : Instr} {s : State} {picks : List Nat} (h : Legal s)
    (hpre : Preconditions cmd s) (hturns : s.schedule = picks.map Turn.core) :
    CoreAlone cmd s (launch cmd (s.dw * s.dh) s) where
  legal := launch_legal h (admits_iff_preconditions.2 hpre)
  inFlight := launch_inFlight cmd s
  outside := fun _ _ => rfl
  acc := fun _ => rfl
  turns := ⟨picks, hturns⟩

/-- Taking an index off `PENDING` makes it one shorter (rule R68). -/
theorem length_dropPending {s : State} (h : Legal s) {k : Nat} (hk : k ∈ s.pending) :
    (s.dropPending k).pending.length + 1 = s.pending.length := by
  have hnodup : s.pending.Nodup := h.pending_sorted.imp Nat.ne_of_lt
  rw [dropPending_pending, ← hnodup.erase_eq_filter, List.length_erase_of_mem hk]
  exact Nat.sub_add_cancel (List.length_pos_of_mem hk)

/-- With the source written at the launch, the pixel step for a pending index answers, and leaves
one index less. -/
theorem CoreAlone.pixelStep {cmd : Instr} {l s : State} (h : CoreAlone cmd l s)
    (hsrc : SourceWritten l) {k : Nat} (hk : k ∈ s.pending) :
    ∃ t, pixelStep k s = .next t ∧ CoreAlone cmd l t ∧
      t.pending.length + 1 = s.pending.length := by
  have hpre := h.legal.preconditions_of_busy h.inFlight.busy h.inFlight.latch
  have hlt : k < s.dw * s.dh := h.legal.pending_lt k hk
  have hw := (h.inFlight.sourceWritten hsrc).readsWritten hpre hlt
  obtain ⟨v, acc, hout, hstep⟩ :=
    pixelStep_writes h.legal h.inFlight.busy h.inFlight.latch hk hw
  refine ⟨_, hstep, ?_, length_dropPending h.legal hk⟩
  obtain ⟨-, -, -, hdb, hdw, hdh, -⟩ := h.inFlight.operands.values
  exact {
    legal := pixelStep_legal h.legal hstep
    inFlight := h.inFlight.after_pixelStep h.legal hk hstep
    outside := fun a ha => by
      rw [hdw, hdh] at hlt
      have hne : a ≠ s.db + k := by omega
      exact (PMem.read_write_other _ _ hne).trans (h.outside a ha)
    acc := fun hcmd => (outIndex_acc hout hcmd).trans (h.acc hcmd)
    turns := h.turns }

/-- With nothing pending the completion step ends the command (rule R69). -/
theorem CoreAlone.complete {cmd : Instr} {l s : State} (h : CoreAlone cmd l s)
    (hpend : s.pending = []) : Completed cmd l (complete s) where
  legal := complete_legal h.legal hpend
  idle := rfl
  done := rfl
  pending := hpend
  operands := h.inFlight.operands
  destination := fun _ hk => h.inFlight.destination_of_pending_nil hpend hk
  outside := h.outside
  acc := h.acc

/-! ## The run to completion -/

/-- While the schedule has turns of the core alone, or none, a step of a busy machine is a core
step, and the schedule it leaves is such a one again. -/
theorem step_core_turns {s : State} {picks : List Nat} (hbusy : s.busy = true)
    (hturns : s.schedule = picks.map Turn.core) :
    ∃ n rest, step s = coreStep n { s with schedule := List.map Turn.core rest } := by
  cases picks with
  | nil =>
    have hsame : { s with schedule := List.map Turn.core [] } = s := by rw [← hturns]
    exact ⟨0, [], by rw [hsame, step_busy_default hbusy hturns]⟩
  | cons n rest => exact ⟨n, rest, step_busy_core hbusy hturns⟩

/-- The core alone completes its command in one step for each pending index and one more. -/
theorem CoreAlone.run_completes {cmd : Instr} {l s : State} {n : Nat} (h : CoreAlone cmd l s)
    (hsrc : SourceWritten l) (hlength : s.pending.length = n) :
    ∃ t, Host.Core.run Sys2Proof.core (n + 1) s = .next t ∧ Completed cmd l t := by
  obtain ⟨picks, hturns⟩ := h.turns
  induction n generalizing s picks with
  | zero =>
    obtain ⟨m, rest, hstep⟩ := step_core_turns h.inFlight.busy hturns
    have hpend : s.pending = [] := List.length_eq_zero_iff.1 hlength
    simp only [coreStep, pickIndex_eq_none.2 hpend] at hstep
    exact ⟨_, run_succ hstep, (h.withTurns rest).complete hpend⟩
  | succ n ih =>
    obtain ⟨m, rest, hstep⟩ := step_core_turns h.inFlight.busy hturns
    have hpend : s.pending ≠ [] := by
      rintro hnil
      simp [hnil] at hlength
    obtain ⟨k, hk⟩ := Option.ne_none_iff_exists'.1 (mt (pickIndex_eq_none (n := m)).1 hpend)
    simp only [coreStep, hk] at hstep
    obtain ⟨x, hpixel, hx, hless⟩ := (h.withTurns rest).pixelStep hsrc (pickIndex_mem hk)
    obtain ⟨picks', hturns'⟩ := hx.turns
    obtain ⟨t, hrun, ht⟩ := ih hx (Nat.succ.inj (hless.trans hlength)) picks' hturns'
    exact ⟨t, (run_succ (hstep.trans hpixel)).trans hrun, ht⟩

/-- A launched command whose source is written completes in `dw*dh + 1` core steps (rules R67 to
R69). -/
theorem launch_completes {cmd : Instr} {s : State} {picks : List Nat} (h : Legal s)
    (hpre : Preconditions cmd s) (hsrc : SourceWritten s)
    (hturns : s.schedule = picks.map Turn.core) :
    ∃ t, Host.Core.run Sys2Proof.core (s.dw * s.dh + 1) (launch cmd (s.dw * s.dh) s) = .next t ∧
      Completed cmd s t :=
  (launch_coreAlone h hpre hturns).run_completes hsrc List.length_range

/-! ## What each command completes to -/

/-- The destination pixel at a row and column is the output pixel of the command there. -/
theorem Completed.output {cmd : Instr} {l t : State} (h : Completed cmd l t) {row col : Nat}
    (hrow : row < l.dh) (hcol : col < l.dw) :
    ∃ v, t.pmem.read (l.db + row * l.dw + col) = some v ∧ IsOutput cmd l row col v := by
  have hlimit : l.db + row * l.dw + col < l.db + l.dw * l.dh :=
    Image.addr_lt_limit (img := dstImage l) hrow hcol
  obtain ⟨v, acc, hout, hread⟩ := h.destination (row * l.dw + col) (by omega)
  have hdiv : (row * l.dw + col) / l.dw = row := by
    rw [Nat.mul_comm, Nat.mul_add_div (Nat.zero_lt_of_lt hcol), Nat.div_eq_of_lt hcol, Nat.add_zero]
  have hmod : (row * l.dw + col) % l.dw = col := Nat.mul_add_mod_of_lt hcol
  have houtput := outIndex_eq_next hout
  rw [hdiv, hmod] at houtput
  exact ⟨v, by rw [Nat.add_assoc]; exact hread, houtput⟩

/-- Settles O34: the output pixel of `SQUASH` is the sampled source pixel. -/
theorem squashWholeCommand : Obligations.SquashWholeCommand := by
  intro s picks h hidle hpre hsrc hturns
  obtain ⟨t, hrun, ht⟩ := launch_completes h hpre hsrc hturns
  refine ⟨_, t, exec_admitted hidle hpre, hrun, fun row col hrow hcol => ?_, ht.outside,
    ht.operands, ht.idle, ht.done, ht.pending, ht.acc (by decide)⟩
  obtain ⟨v, hread, rfl⟩ := ht.output hrow hcol
  exact hread

/-- Settles O35: the output pixel of `COLORROT` is the rotated one, channel by channel. -/
theorem colorrotWholeCommand : Obligations.ColorrotWholeCommand := by
  intro s picks h hidle hpre hsrc hturns
  obtain ⟨t, hrun, ht⟩ := launch_completes h hpre hsrc hturns
  refine ⟨_, t, exec_admitted hidle hpre, hrun, fun row col hrow hcol => ?_, ht.outside,
    ht.operands, ht.idle, ht.done, ht.pending, ht.acc (by decide)⟩
  obtain ⟨v, hread, rfl⟩ := ht.output hrow hcol
  exact ⟨_, hread, rot_channels _⟩

/-- Settles O36: the output pixel of `BLUR` is the blurred one. -/
theorem blurWholeCommand : Obligations.BlurWholeCommand := by
  intro s picks h hidle hpre hsrc hturns
  obtain ⟨t, hrun, ht⟩ := launch_completes h hpre hsrc hturns
  exact ⟨_, t, exec_admitted hidle hpre, hrun, fun row col hrow hcol => ht.output hrow hcol,
    ht.outside, ht.operands, ht.idle, ht.done, ht.pending⟩

/-- Settles O37: the output pixel of `EXPAND` is that of the table. -/
theorem expandWholeCommand : Obligations.ExpandWholeCommand := by
  intro s picks h hidle hpre hsrc hturns
  obtain ⟨t, hrun, ht⟩ := launch_completes h hpre hsrc hturns
  refine ⟨_, t, exec_admitted hidle hpre, hrun, fun row col hrow hcol => ?_, ht.outside,
    ht.operands, ht.idle, ht.done, ht.pending, ht.acc (by decide)⟩
  obtain ⟨v, hread, rfl⟩ := ht.output hrow hcol
  exact hread

/-! ## The whole command as one function (rule R75) -/

/-- Where `OUT_cmd` answers at the indices from `k` on, the function writes exactly those pixels. -/
theorem wholeCommandFrom_writes {cmd : Instr} {s : State} {n k : Nat} {m : PMem}
    (hout : ∀ j, k ≤ j → j < k + n → ∃ v acc, outIndex cmd s j = .next (v, acc)) (hwf : m.wf) :
    ∃ m', wholeCommandFrom cmd s n k m = .next m' ∧ m'.wf ∧
      (∀ j v acc, k ≤ j → j < k + n → outIndex cmd s j = .next (v, acc) →
        m'.read (s.db + j) = some v) ∧
      (∀ a, ¬ (s.db + k ≤ a ∧ a < s.db + k + n) → m'.read a = m.read a) := by
  induction n generalizing k m with
  | zero => exact ⟨m, rfl, hwf, fun j _ _ hj hj' => by omega, fun _ _ => rfl⟩
  | succ n ih =>
    obtain ⟨v, acc, hv⟩ := hout k le_rfl (by omega)
    obtain ⟨m', hm', hwf', hwritten, hrest⟩ := ih (k := k + 1) (m := m.write (s.db + k) v)
      (fun j hj hj' => hout j (by omega) (by omega)) (PMem.write_wf hwf _ _)
    refine ⟨m', ?_, hwf', fun j w acc' hj hj' hw => ?_, fun a ha => ?_⟩
    · rw [wholeCommandFrom, hv, andThen_next]
      exact hm'
    · rcases hj.eq_or_lt with rfl | hlt
      · obtain ⟨rfl, -⟩ : v = w ∧ acc = acc' := by simpa using hv.symm.trans hw
        rw [hrest _ (by omega), PMem.read_write_same]
      · exact hwritten j w acc' hlt (by omega) hw
    · rw [hrest a (by omega), PMem.read_write_other _ _ (by omega)]

/-- The memory at completion is the one the function gives. -/
theorem Completed.wholeCommand_eq {cmd : Instr} {l t : State} (h : Completed cmd l t)
    (hleg : Legal l) : wholeCommand cmd l = .next t.pmem := by
  have hout : ∀ j, 0 ≤ j → j < 0 + l.dw * l.dh → ∃ v acc, outIndex cmd l j = .next (v, acc) :=
    fun j _ hj => by
      obtain ⟨v, acc, hv, -⟩ := h.destination j (by omega)
      exact ⟨v, acc, hv⟩
  obtain ⟨m, hm, hwf, hwritten, hrest⟩ := wholeCommandFrom_writes hout hleg.pmem_wf
  suffices hmem : m = t.pmem from hmem ▸ hm
  refine PMem.ext_read hwf h.legal.pmem_wf fun a => ?_
  by_cases ha : l.db ≤ a ∧ a < l.db + l.dw * l.dh
  · obtain ⟨k, rfl⟩ := Nat.exists_eq_add_of_le ha.1
    obtain ⟨v, acc, hv, hread⟩ := h.destination k (by omega)
    rw [hread, hwritten k v acc (Nat.zero_le k) (by omega) hv]
  · rw [h.outside a ha, hrest a ha]

/-- Settles O38: both memories hold `OUT_cmd` on the launch's memory in the destination and the
launch's words elsewhere. -/
theorem pixelStepsRefineWholeCommand : Obligations.PixelStepsRefineWholeCommand := by
  intro cmd s picks h _ hpre hsrc hturns
  obtain ⟨t, hrun, ht⟩ := launch_completes h hpre hsrc hturns
  exact ⟨t, t.pmem, hrun, ht.wholeCommand_eq h, rfl, ht.operands, ht.idle, ht.done⟩

end Sys2Proof.Machine
end

section
/-!
The family 41_pixel_codec.md: a pixel is its four channels, and `AVG2` and `AVG4` work on them one
by one. What the averages do to a pixel follows from what `mean2` and `mean4` do to a channel.
-/

namespace Sys2Proof.Machine

open Sys2Proof

/-! ## A pixel is its four channels (rules R80, R81) -/

/-- Settles O21: the shift is the division and the mask is the remainder (`decodeCh_toNat`). -/
theorem decodeChannelIsBitField : Obligations.DecodeChannelIsBitField := decodeCh_toNat

/-- Packing undoes decoding. -/
@[simp] theorem encodePx_channels (p : Word) :
    encodePx (redOf p) (greenOf p) (blueOf p) (alphaOf p) = p := by
  apply BitVec.eq_of_toNat_eq
  simp only [encodePx_toNat, redOf, greenOf, blueOf, alphaOf, decodeCh_toNat, ChannelSel.code]
  omega

/-- Settles O22: the sum is `encodePx_toNat`, and each composition is the identity. -/
theorem encodePixelPacksChannels : Obligations.EncodePixelPacksChannels :=
  ⟨encodePx_toNat, encodePx_channels, fun r g b a =>
    ⟨redOf_encodePx r g b a, greenOf_encodePx r g b a, blueOf_encodePx r g b a,
      alphaOf_encodePx r g b a⟩⟩

/-- Decoding undoes packing, for channels given by their selector. -/
theorem decodeCh_encodePx (f : ChannelSel → Channel) (which : ChannelSel) :
    decodeCh (encodePx (f .red) (f .green) (f .blue) (f .alpha)) which = f which := by
  cases which with
  | red => exact redOf_encodePx ..
  | green => exact greenOf_encodePx ..
  | blue => exact blueOf_encodePx ..
  | alpha => exact alphaOf_encodePx ..

/-- Pixels with the same channels are equal. -/
theorem eq_of_decodeCh_eq {p q : Word} (h : ∀ which, decodeCh p which = decodeCh q which) :
    p = q := by
  rw [← encodePx_channels p, ← encodePx_channels q]
  exact congr (congr (congrArg₂ encodePx (h .red) (h .green)) (h .blue)) (h .alpha)

/-! ## `AVG2` (rules R82, R84, R85) -/

/-- The mean of two channels fits in a channel. -/
theorem mean2_toNat (x y : Channel) : (mean2 x y).toNat = (x.toNat + y.toNat) / 2 := by
  rw [mean2, BitVec.toNat_ofNat]
  omega

theorem mean2_self (x : Channel) : mean2 x x = x := by
  apply BitVec.eq_of_toNat_eq
  rw [mean2_toNat]
  omega

theorem mean2_comm (x y : Channel) : mean2 x y = mean2 y x := by
  rw [mean2, mean2, Nat.add_comm]

theorem mean2_between (x y : Channel) :
    min x.toNat y.toNat ≤ (mean2 x y).toNat ∧ (mean2 x y).toNat ≤ max x.toNat y.toNat := by
  rw [mean2_toNat]
  omega

/-- `AVG2` takes the mean in each lane. -/
theorem decodeCh_avg2 (p q : Word) (which : ChannelSel) :
    decodeCh (avg2 p q) which = mean2 (decodeCh p which) (decodeCh q which) :=
  decodeCh_encodePx (fun c => mean2 (decodeCh p c) (decodeCh q c)) which

/-- Settles O23: each part is that of `mean2`, in each lane. -/
theorem avg2IsLanewiseMean : Obligations.Avg2IsLanewiseMean := by
  intro p q
  refine ⟨fun which => ?lanes, eq_of_decodeCh_eq fun which => ?same,
    eq_of_decodeCh_eq fun which => ?symmetric, fun which => ?between⟩
  case lanes => rw [decodeCh_avg2, mean2_toNat]
  case same => rw [decodeCh_avg2, mean2_self]
  case symmetric => rw [decodeCh_avg2, decodeCh_avg2, mean2_comm]
  case between => rw [decodeCh_avg2]; exact mean2_between _ _

/-! ## `AVG4` (rules R83 to R85) -/

/-- The mean of four channels fits in a channel. -/
theorem mean4_toNat (x y z t : Channel) :
    (mean4 x y z t).toNat = (x.toNat + y.toNat + z.toNat + t.toNat) / 4 := by
  rw [mean4, BitVec.toNat_ofNat]
  omega

theorem mean4_self (x : Channel) : mean4 x x x x = x := by
  apply BitVec.eq_of_toNat_eq
  rw [mean4_toNat]
  omega

theorem mean4_swap_first (x y z t : Channel) : mean4 x y z t = mean4 y x z t := by
  rw [mean4, mean4, Nat.add_comm x.toNat]

theorem mean4_swap_middle (x y z t : Channel) : mean4 x y z t = mean4 x z y t := by
  rw [mean4, mean4, Nat.add_right_comm x.toNat]

theorem mean4_swap_last (x y z t : Channel) : mean4 x y z t = mean4 x y t z := by
  rw [mean4, mean4, Nat.add_right_comm (x.toNat + y.toNat)]

theorem mean4_between (x y z t : Channel) :
    min (min x.toNat y.toNat) (min z.toNat t.toNat) ≤ (mean4 x y z t).toNat ∧
      (mean4 x y z t).toNat ≤ max (max x.toNat y.toNat) (max z.toNat t.toNat) := by
  rw [mean4_toNat]
  omega

/-- `AVG4` takes the mean in each lane. -/
theorem decodeCh_avg4 (p q r t : Word) (which : ChannelSel) :
    decodeCh (avg4 p q r t) which =
      mean4 (decodeCh p which) (decodeCh q which) (decodeCh r which) (decodeCh t which) :=
  decodeCh_encodePx
    (fun c => mean4 (decodeCh p c) (decodeCh q c) (decodeCh r c) (decodeCh t c)) which

/-- Settles O24: each part is that of `mean4`, in each lane. -/
theorem avg4IsLanewiseMean : Obligations.Avg4IsLanewiseMean := by
  intro p q r t
  refine ⟨fun which => ?lanes, eq_of_decodeCh_eq fun which => ?same,
    eq_of_decodeCh_eq fun which => ?first, eq_of_decodeCh_eq fun which => ?middle,
    eq_of_decodeCh_eq fun which => ?last, fun which => ?between⟩
  case lanes => rw [decodeCh_avg4, mean4_toNat]
  case same => rw [decodeCh_avg4, mean4_self]
  case first => rw [decodeCh_avg4, decodeCh_avg4, mean4_swap_first]
  case middle => rw [decodeCh_avg4, decodeCh_avg4, mean4_swap_middle]
  case last => rw [decodeCh_avg4, decodeCh_avg4, mean4_swap_last]
  case between => rw [decodeCh_avg4]; exact mean4_between _ _ _ _

end Sys2Proof.Machine
end

section
/-!
The family 42_image_accessor.md: `PIXEL_AT` and `ACC_ACCUM` split on whether the coordinate is in
bounds, `ROW_OF` and `COL_OF` are the quotient and the remainder, and `ACC_FINAL` is worked out
channel by channel.
-/

namespace Sys2Proof.Machine

open Sys2Proof

/-! ## Reads of a coordinate (rules R90, R93) -/

/-- `INB` says that both coordinates are in range. -/
theorem inb_iff {img : Image} {row col : Int} :
    inb img row col = true ↔ 0 ≤ row ∧ row < img.height ∧ 0 ≤ col ∧ col < img.width := by
  simp [inb, and_assoc]

/-- `PIXEL_AT` is refused out of bounds. -/
theorem pixelAt_out {s : State} {img : Image} {row col : Int} (h : ¬ inb img row col = true) :
    pixelAt s img row col = .refused .pixelAtOutOfBounds := if_neg h

/-- Settles O26: in bounds the coordinates are naturals, and `pixelAt_inb` says what is read. -/
theorem pixelAtReadsOnlyInBounds : Obligations.PixelAtReadsOnlyInBounds := by
  intro s img row col
  constructor
  · intro hin
    obtain ⟨r, c, rfl, rfl, hr, hc⟩ := inb_eq_true.1 (inb_iff.2 hin)
    exact pixelAt_inb hr hc
  · intro hout
    exact pixelAt_out (mt inb_iff.1 hout)

/-! ## The coordinates of a linear index (rules R91, R92) -/

/-- `ROW_OF` and `COL_OF` recover the coordinates from the index they make. -/
theorem rowOf_colOf_of_index {r c w : Nat} (hc : c < w) :
    rowOf (r * w + c) w = .next r ∧ colOf (r * w + c) w = .next c := by
  have hw : w ≠ 0 := by omega
  obtain ⟨hdiv, hmod⟩ := (Nat.div_mod_unique (d := r) (Nat.pos_of_ne_zero hw)).2
    ⟨by rw [Nat.mul_comm, Nat.add_comm], hc⟩
  exact ⟨rowOf_eq_next.2 ⟨hw, hdiv.symm⟩, colOf_eq_next.2 ⟨hw, hmod.symm⟩⟩

/-- Settles O27: the corner cases are facts about the quotient and the remainder. -/
theorem rowAndColumnInvertTheIndex : Obligations.RowAndColumnInvertTheIndex := by
  refine ⟨fun i w hw => ?_, fun r c w hc => rowOf_colOf_of_index hc, fun i => ⟨rfl, rfl⟩⟩
  have hw0 : w ≠ 0 := Nat.one_le_iff_ne_zero.1 hw
  refine ⟨i / w, i % w, rowOf_eq_next.2 ⟨hw0, rfl⟩, colOf_eq_next.2 ⟨hw0, rfl⟩, rfl, rfl,
    Nat.div_add_mod' i w, Nat.mod_lt i hw, Nat.div_eq_of_lt, ?widthOne,
    fun _ => Nat.div_lt_of_lt_mul⟩
  case widthOne =>
    rintro rfl
    exact ⟨Nat.div_one i, Nat.mod_one i⟩

/-! ## Accumulation (rule R95) -/

/-- The order in which two pixels contribute does not matter. -/
theorem Acc.addPixel_comm (acc : Acc) (p q : Word) :
    (acc.addPixel p).addPixel q = (acc.addPixel q).addPixel p := by
  simp only [Acc.addPixel, Nat.add_right_comm]

/-- A coordinate in bounds contributes the pixel read there. -/
theorem accAccum_inb {s : State} {img : Image} {row col : Int} {p : Word}
    (hin : inb img row col = true) (hp : pixelAt s img row col = .next p) (acc : Acc) :
    accAccum s img row col acc = .next (acc.addPixel p) :=
  accAccum_eq_next.2 (.inl ⟨hin, p, hp, rfl⟩)

/-- A coordinate out of bounds is skipped. -/
theorem accAccum_out {s : State} {img : Image} {row col : Int} (hout : inb img row col = false)
    (acc : Acc) : accAccum s img row col acc = .next acc :=
  accAccum_eq_next.2 (.inr ⟨hout, rfl⟩)

/-- Two accumulations that answer in one order answer the same in the other: what a coordinate
contributes does not depend on `ACC`. -/
theorem accAccum_comm {s : State} {img : Image} {r1 c1 r2 c2 : Int} {acc mid out : Acc}
    (h1 : accAccum s img r1 c1 acc = .next mid) (h2 : accAccum s img r2 c2 mid = .next out) :
    ∃ mid', accAccum s img r2 c2 acc = .next mid' ∧ accAccum s img r1 c1 mid' = .next out := by
  rcases accAccum_eq_next.1 h2 with ⟨hin2, q, hq, rfl⟩ | ⟨hout2, rfl⟩
  · refine ⟨acc.addPixel q, accAccum_inb hin2 hq acc, ?_⟩
    rcases accAccum_eq_next.1 h1 with ⟨hin1, p, hp, rfl⟩ | ⟨hout1, rfl⟩
    · rw [Acc.addPixel_comm]
      exact accAccum_inb hin1 hp _
    · exact accAccum_out hout1 _
  · exact ⟨acc, accAccum_out hout2 acc, h1⟩

/-- Settles O28: a coordinate in bounds adds its pixel, any other is skipped, and accumulations
commute. -/
theorem accumulateAddsInBoundsPixels : Obligations.AccumulateAddsInBoundsPixels := by
  refine ⟨fun s img row col p acc hr hc hmem hread => ?added,
    fun s img row col acc hout => ?skipped, fun s img r1 c1 r2 c2 acc out h => ?swapped⟩
  case added =>
    have hp : pixelAt s img row col = .next p :=
      (pixelAt_inb hr hc).trans (memRead_eq_next.2 ⟨hmem, hread⟩)
    exact accAccum_inb (inb_ofNat.2 ⟨hr, hc⟩) hp acc
  case skipped => exact accAccum_out (Bool.eq_false_iff.2 (mt inb_iff.1 hout)) acc
  case swapped =>
    obtain ⟨mid, h1, hrest⟩ := andThen_eq_next.1 h
    obtain ⟨out', h2, hend⟩ := andThen_eq_next.1 hrest
    obtain ⟨mid', h2', h1'⟩ := accAccum_comm h1 h2
    exact andThen_eq_next.2 ⟨mid', h2', andThen_eq_next.2 ⟨out', h1', hend⟩⟩

/-! ## The mean (rule R96) -/

/-- `ACC_FINAL` packs any four channels that are the four quotients. -/
theorem accFinal_of_means {acc : Acc} (hcount : acc.count ≠ 0) {r g b a : Channel}
    (hr : r.toNat = acc.sumR / acc.count) (hg : g.toNat = acc.sumG / acc.count)
    (hb : b.toNat = acc.sumB / acc.count) (ha : a.toNat = acc.sumA / acc.count) :
    accFinal acc = .next (encodePx r g b a) :=
  accFinal_eq_next.2 ⟨hcount, r, g, b, a, hr, hg, hb, ha, rfl⟩

/-- The channels of the pixel that `ACC_FINAL` answers are the four quotients. -/
theorem accFinal_channels {acc : Acc} {q : Word} (h : accFinal acc = .next q) :
    (redOf q).toNat = acc.sumR / acc.count ∧ (greenOf q).toNat = acc.sumG / acc.count ∧
      (blueOf q).toNat = acc.sumB / acc.count ∧ (alphaOf q).toNat = acc.sumA / acc.count := by
  obtain ⟨-, r, g, b, a, hr, hg, hb, ha, rfl⟩ := accFinal_eq_next.1 h
  rw [redOf_encodePx, greenOf_encodePx, blueOf_encodePx, alphaOf_encodePx]
  exact ⟨hr, hg, hb, ha⟩

/-- The sum that one pixel leaves, over its count, is the channel itself. -/
theorem channel_eq_mean1 (x : Channel) : x.toNat = (0 + x.toNat) / 1 := by
  rw [Nat.zero_add, Nat.div_one]

/-- The sums that two pixels leave, over their count, are the means of `AVG2`. -/
theorem mean2_eq_mean (x y : Channel) : (mean2 x y).toNat = (0 + x.toNat + y.toNat) / 2 := by
  rw [mean2_toNat, Nat.zero_add]

/-- The sums that four pixels leave, over their count, are the means of `AVG4`. -/
theorem mean4_eq_mean (x y z t : Channel) :
    (mean4 x y z t).toNat = (0 + x.toNat + y.toNat + z.toNat + t.toNat) / 4 := by
  rw [mean4_toNat, Nat.zero_add]

theorem accFinal_one (p : Word) : accFinal (Acc.zero.addPixel p) = .next p :=
  (accFinal_of_means Nat.one_ne_zero (channel_eq_mean1 _) (channel_eq_mean1 _)
    (channel_eq_mean1 _) (channel_eq_mean1 _)).trans (congrArg _ (encodePx_channels p))

theorem accFinal_two (p q : Word) :
    accFinal ((Acc.zero.addPixel p).addPixel q) = .next (avg2 p q) :=
  accFinal_of_means (Nat.succ_ne_zero _) (mean2_eq_mean _ _) (mean2_eq_mean _ _)
    (mean2_eq_mean _ _) (mean2_eq_mean _ _)

theorem accFinal_four (p q r t : Word) :
    accFinal ((((Acc.zero.addPixel p).addPixel q).addPixel r).addPixel t) =
      .next (avg4 p q r t) :=
  accFinal_of_means (Nat.succ_ne_zero _) (mean4_eq_mean _ _ _ _) (mean4_eq_mean _ _ _ _)
    (mean4_eq_mean _ _ _ _) (mean4_eq_mean _ _ _ _)

/-- Settles O29: sums within bounds give an answer (`accFinal_answers`), whose channels are the
quotients; one, two and four pixels give the means of those lengths. -/
theorem accFinalIsTruncatedMean : Obligations.AccFinalIsTruncatedMean := by
  refine ⟨fun acc hcount hr hg hb ha => ?_,
    fun p q r t => ⟨accFinal_one p, accFinal_two p q, accFinal_four p q r t⟩,
    fun _ hzero => if_pos hzero⟩
  obtain ⟨q, hq⟩ := accFinal_answers (Nat.one_le_iff_ne_zero.1 hcount) ⟨hr, hg, hb, ha⟩
  exact ⟨q, hq, accFinal_channels hq⟩

end Sys2Proof.Machine
end

section
/-!
The family 44_channel_rotation.md: `ROT` moves three channels of a packed pixel round, so its square
is the inverse rotation, and a pixel that the square fixes is one that `ROT` fixes.
-/

namespace Sys2Proof.Machine

open Sys2Proof

/-! ## The rotation and its powers (rules R106, R107) -/

/-- `ROT` moves red to green, green to blue and blue to red. -/
@[simp] theorem rot_encodePx (r g b a : Channel) :
    rot (encodePx r g b a) = encodePx b r g a := by
  rw [rot, redOf_encodePx, greenOf_encodePx, blueOf_encodePx, alphaOf_encodePx]

theorem rot_rot (p : Word) :
    rot (rot p) = encodePx (greenOf p) (blueOf p) (redOf p) (alphaOf p) :=
  rot_encodePx ..

theorem rot_rot_rot (p : Word) : rot (rot (rot p)) = p := by
  rw [rot_rot p, rot_encodePx, encodePx_channels]

/-! ## The fixed pixels (rule R107 (b), (d)) -/

/-- `ROT` fixes exactly the grey pixels. -/
theorem rot_eq_self_iff {p : Word} : rot p = p ↔ redOf p = greenOf p ∧ greenOf p = blueOf p := by
  obtain ⟨-, hgreen, hblue, -⟩ := rot_channels p
  constructor
  · intro hfix
    rw [hfix] at hgreen hblue
    exact ⟨hgreen.symm, hblue.symm⟩
  · rintro ⟨hrg, hgb⟩
    calc rot p = encodePx (blueOf p) (redOf p) (greenOf p) (alphaOf p) := rfl
      _ = encodePx (redOf p) (greenOf p) (blueOf p) (alphaOf p) := by rw [hrg, hgb]
      _ = p := encodePx_channels p

/-- A pixel that the square of `ROT` fixes is one that `ROT` fixes: one more rotation is the third. -/
theorem rot_rot_eq_self_iff {p : Word} : rot (rot p) = p ↔ rot p = p := by
  constructor
  · intro hsquare
    calc rot p = rot (rot (rot p)) := congrArg rot hsquare.symm
      _ = p := rot_rot_rot p
  · intro hfix
    rw [hfix, hfix]

/-- Settles O25: the rotation's powers are packings of the same channels, and the pixels that it and
its square fix are the grey ones. -/
theorem rotationHasOrderThree : Obligations.RotationHasOrderThree := by
  intro p
  obtain ⟨-, -, -, halpha⟩ := rot_channels p
  exact ⟨rot_rot_rot p, rot_rot p, halpha, fun hrg hgb => rot_eq_self_iff.2 ⟨hrg, hgb⟩,
    rot_rot_eq_self_iff.trans rot_eq_self_iff⟩

end Sys2Proof.Machine
end

section
/-!
The family 45_box_blur.md: the window and the clamped window are rectangles, listed row by row, and
the positions of either that lie in the image are the same list. Positions out of bounds are
skipped, so the accumulations over the two agree. At distance 0 the clamped window is one position,
and at a distance that reaches over the whole image it is the whole image.
-/

namespace Sys2Proof.Machine

open Sys2Proof

/-! ## Rectangles of positions (rules R111, R113) -/

/-- The positions of a rectangle, row by row, from its top left corner. -/
def rectangle (top left : Int) (height width : Nat) : List (Int × Int) :=
  (List.range height).flatMap fun i : Nat =>
    (List.range width).map fun j : Nat => (top + (i : Int), left + (j : Int))

/-- The window of rule R111 is a rectangle. -/
theorem window_eq_rectangle (d row col : Nat) :
    window d row col =
      rectangle ((row : Int) - d) ((col : Int) - d) (2 * d + 1) (2 * d + 1) := rfl

/-- The clamped window of rule R113 is a rectangle. -/
theorem clampedWindow_eq_rectangle (img : Image) (d row col : Nat) :
    clampedWindow img d row col =
      rectangle (row - d : Nat) (col - d : Nat)
        (min (img.height - 1) (row + d) - (row - d) + 1)
        (min (img.width - 1) (col + d) - (col - d) + 1) := by
  simp only [clampedWindow, rectangle, Int.natCast_add]

theorem mem_rectangle {top left : Int} {height width : Nat} {rc : Int × Int} :
    rc ∈ rectangle top left height width ↔
      (top ≤ rc.1 ∧ rc.1 < top + height) ∧ left ≤ rc.2 ∧ rc.2 < left + width := by
  obtain ⟨r, c⟩ := rc
  simp only [rectangle, List.mem_flatMap, List.mem_map, List.mem_range, Prod.mk.injEq]
  constructor
  · rintro ⟨i, hi, j, hj, rfl, rfl⟩
    omega
  · intro h
    exact ⟨(r - top).toNat, by omega, (c - left).toNat, by omega, by omega, by omega⟩

/-- A rectangle is listed in the order of rows, and in a row in the order of columns. -/
theorem rectangle_pairwise (top left : Int) (height width : Nat) :
    (rectangle top left height width).Pairwise (Prod.Lex (· < ·) (· < ·)) := by
  rw [rectangle, List.pairwise_flatMap]
  constructor
  · intro i _
    refine List.pairwise_map.2 (List.pairwise_lt_range.imp fun hj => ?_)
    exact .right _ (by omega)
  · refine List.pairwise_lt_range.imp fun hi x hx y hy => ?_
    obtain ⟨j, -, rfl⟩ := List.mem_map.1 hx
    obtain ⟨k, -, rfl⟩ := List.mem_map.1 hy
    exact .left _ _ (by omega)

/-- The positions of a list that lie in the image (rule R93), in the list's order. -/
def inImage (img : Image) (positions : List (Int × Int)) : List (Int × Int) :=
  positions.filter fun rc => inb img rc.1 rc.2

theorem inImage_cons_of_inb {img : Image} {rc : Int × Int} (h : inb img rc.1 rc.2 = true)
    (rest : List (Int × Int)) : inImage img (rc :: rest) = rc :: inImage img rest :=
  List.filter_cons_of_pos h

theorem inImage_cons_of_not_inb {img : Image} {rc : Int × Int} (h : ¬ inb img rc.1 rc.2 = true)
    (rest : List (Int × Int)) : inImage img (rc :: rest) = inImage img rest :=
  List.filter_cons_of_neg h

/-- Rectangles that hold the same positions of an image list them alike. -/
theorem inImage_rectangle_eq {img : Image} {top left top' left' : Int}
    {height width height' width' : Nat}
    (h : ∀ rc : Int × Int, inb img rc.1 rc.2 = true →
      (rc ∈ rectangle top left height width ↔ rc ∈ rectangle top' left' height' width')) :
    inImage img (rectangle top left height width) =
      inImage img (rectangle top' left' height' width') := by
  refine List.Pairwise.eq_of_mem_iff ((rectangle_pairwise ..).filter _)
    ((rectangle_pairwise ..).filter _) fun rc => ?_
  rw [inImage, inImage, List.mem_filter, List.mem_filter]
  exact and_congr_left (h rc)

/-- The window and the clamped window list the same positions of the image: the clamping of rule
R113 drops only positions out of bounds. Where the window misses the image, the natural subtractions
still leave a row or a column, and it is out of bounds too. -/
theorem inImage_clampedWindow (img : Image) (d row col : Nat) :
    inImage img (clampedWindow img d row col) = inImage img (window d row col) := by
  rw [clampedWindow_eq_rectangle, window_eq_rectangle]
  refine inImage_rectangle_eq fun rc hin => ?_
  obtain ⟨hrow, hrow', hcol, hcol'⟩ := inb_iff.1 hin
  rw [mem_rectangle, mem_rectangle]
  omega

/-! ## Accumulation over positions (rules R95, R112) -/

/-- Positions out of bounds may be left out of an accumulation. -/
theorem accumAll_inImage (s : State) (img : Image) (positions : List (Int × Int)) (acc : Acc) :
    accumAll s img (inImage img positions) acc = accumAll s img positions acc := by
  induction positions generalizing acc with
  | nil => rfl
  | cons rc rest ih =>
    by_cases hin : inb img rc.1 rc.2 = true
    · rw [inImage_cons_of_inb hin]
      exact andThen_congr rfl fun acc' _ => ih acc'
    · rw [inImage_cons_of_not_inb hin, ih, accumAll, accAccum_out (Bool.eq_false_iff.2 hin),
        andThen_next]

/-- `OUT_BLUR` depends on the positions only through those in bounds. -/
theorem blurOver_congr {s : State} {ps qs : List (Int × Int)}
    (h : inImage (srcImage s) ps = inImage (srcImage s) qs) (row col : Nat) :
    blurOver s ps row col = blurOver s qs row col := by
  rw [blurOver, blurOver, ← accumAll_inImage s _ ps, h, accumAll_inImage]

/-- Settles O30: out of bounds nothing is read or counted, and in bounds the two scans visit the
same positions in the same order. -/
theorem clampedBlurEqualsFullWindowBlur : Obligations.ClampedBlurEqualsFullWindowBlur :=
  fun s row col => blurOver_congr (inImage_clampedWindow (srcImage s) s.dist row col) row col

/-! ## Distance 0 and distances over the whole image (rules R115, R116) -/

/-- When `OUT_BLUR` answers: `ACC` holds the accumulation, red, green and blue are those of its
mean, and alpha is that of the source pixel. -/
theorem blurOver_eq_next {s : State} {positions : List (Int × Int)} {row col : Nat} {v : Word}
    {acc : Acc} :
    blurOver s positions row col = .next (v, acc) ↔
      accumAll s (srcImage s) positions Acc.zero = .next acc ∧
        ∃ q p, accFinal acc = .next q ∧ src s row col = .next p ∧
          v = encodePx (redOf q) (greenOf q) (blueOf q) (alphaOf p) := by
  simp only [blurOver, accReset, andThen_eq_next, Host.Outcome.next.injEq, Prod.mk.injEq]
  constructor
  · rintro ⟨acc', haccum, q, hfinal, p, hsrc, rfl, rfl⟩
    exact ⟨haccum, q, p, hfinal, hsrc, rfl⟩
  · rintro ⟨haccum, q, p, hfinal, hsrc, rfl⟩
    exact ⟨acc, haccum, q, hfinal, p, hsrc, rfl, rfl⟩

/-- At distance 0 the clamped window is its position alone. -/
theorem clampedWindow_zero (img : Image) (row col : Nat) :
    clampedWindow img 0 row col = [((row : Int), (col : Int))] := by
  have hheight : min (img.height - 1) (row + 0) - (row - 0) + 1 = 1 := by omega
  have hwidth : min (img.width - 1) (col + 0) - (col - 0) + 1 = 1 := by omega
  rw [clampedWindow_eq_rectangle, hheight, hwidth]
  simp [rectangle]

/-- Settles O31: the accumulation holds the one source pixel, so the mean is that pixel. -/
theorem blurDistanceZeroIsCopy : Obligations.BlurDistanceZeroIsCopy := by
  intro s row col p hdist hrow hcol hmem hread
  have hzero : s.dist = 0 := congrArg BitVec.toNat hdist
  have hsrc : src s row col = .next p := src_eq_next.2 ⟨hrow, hcol, hmem, hread⟩
  have haccum : accumAll s (srcImage s) [((row : Int), (col : Int))] Acc.zero =
      .next (Acc.zero.addPixel p) :=
    andThen_eq_next.2 ⟨_, accAccum_inb (inb_ofNat.2 ⟨hrow, hcol⟩) hsrc Acc.zero, rfl⟩
  rw [outBlur, hzero, clampedWindow_zero]
  exact blurOver_eq_next.2 ⟨haccum, p, p, accFinal_one p, hsrc, (encodePx_channels p).symm⟩

/-- A distance that reaches over the whole image makes the clamped window the whole image, at every
position in bounds. -/
theorem clampedWindow_of_large_distance {img : Image} {d row col : Nat}
    (hwidth : img.width ≤ d + 1) (hheight : img.height ≤ d + 1) (hrow : row < img.height)
    (hcol : col < img.width) :
    clampedWindow img d row col = rectangle 0 0 img.height img.width := by
  have htop : row - d = 0 := by omega
  have hleft : col - d = 0 := by omega
  have hrows : min (img.height - 1) (row + d) - 0 + 1 = img.height := by omega
  have hcols : min (img.width - 1) (col + d) - 0 + 1 = img.width := by omega
  rw [clampedWindow_eq_rectangle, htop, hleft, hrows, hcols, Int.natCast_zero]

theorem length_rectangle (top left : Int) (height width : Nat) :
    (rectangle top left height width).length = height * width := by
  simp [rectangle, List.length_flatMap]

/-- Accumulating over the whole image counts every pixel. -/
theorem accumAll_image_count {s : State} {img : Image} {acc : Acc}
    (h : accumAll s img (rectangle 0 0 img.height img.width) Acc.zero = .next acc) :
    acc.count = img.width * img.height := by
  have hinb : ∀ rc ∈ rectangle 0 0 img.height img.width, inb img rc.1 rc.2 = true := by
    intro rc hrc
    obtain ⟨hrow, hcol⟩ := mem_rectangle.1 hrc
    exact inb_iff.2 (by omega)
  rw [accumAll_count hinb h, length_rectangle, Nat.mul_comm]
  exact Nat.zero_add _

/-- Settles O32: both accumulations are over the whole image, so they and their means are the
same. -/
theorem largeDistanceBlurIsUniform : Obligations.LargeDistanceBlurIsUniform := by
  intro s row col row' col' v v' acc acc' hwidth hheight hrow hcol hrow' hcol' h h'
  rw [outBlur, clampedWindow_of_large_distance hwidth hheight hrow hcol] at h
  rw [outBlur, clampedWindow_of_large_distance hwidth hheight hrow' hcol'] at h'
  obtain ⟨haccum, q, p, hfinal, -, rfl⟩ := blurOver_eq_next.1 h
  obtain ⟨haccum', q', p', hfinal', -, rfl⟩ := blurOver_eq_next.1 h'
  obtain rfl : acc = acc' := Host.Outcome.next.inj (haccum.symm.trans haccum')
  obtain rfl : q = q' := Host.Outcome.next.inj (hfinal.symm.trans hfinal')
  simp only [redOf_encodePx, greenOf_encodePx, blueOf_encodePx, and_self, and_true, true_and]
  exact accumAll_image_count haccum

end Sys2Proof.Machine
end

section
/-!
The family 46_upsample.md: `EXPAND` puts every original pixel at twice its row and column, and
`SQUASH` by 2 and 2 reads the image it made at exactly those positions.
-/

namespace Sys2Proof.Machine

open Sys2Proof

/-- The output at the linear index of a position is the output at the position (rules R91, R92). -/
theorem outIndex_of_position {cmd : Instr} {s : State} {row col : Nat} (hcol : col < s.dw) :
    outIndex cmd s (row * s.dw + col) = outPixel cmd s row col := by
  obtain ⟨hrowOf, hcolOf⟩ := rowOf_colOf_of_index (r := row) hcol
  rw [outIndex, hrowOf, hcolOf, andThen_next, andThen_next]

/-- The first row of the table: at an even row and column stands an original pixel (rules R122,
R126). -/
theorem expandWord_even (s : State) (row col : Nat) :
    expandWord s (row * 2) (col * 2) = sourceWord s row col := by
  simp [expandWord]

/-- Settles O33: the pixel `SQUASH` reads stands at an even row and column of the expanded image,
where `EXPAND` copies the original pixel. -/
theorem squashUndoesExpand : Obligations.SquashUndoesExpand := by
  intro s u hpre _ hexpanded hbase hwidth hheight hxfac hyfac hmem row col hrow hcol
  obtain ⟨⟨-, -, -, -, -, hfit, -⟩, hdw, hdh⟩ := hpre
  have hsb : u.sb = s.db := congrArg BitVec.toNat hbase
  have hsw : u.sw = s.dw := congrArg BitVec.toNat hwidth
  have hsh : u.sh = s.dh := congrArg BitVec.toNat hheight
  have hxf : u.xf = 2 := congrArg BitVec.toNat hxfac
  have hyf : u.yf = 2 := congrArg BitVec.toNat hyfac
  have hrow2 : row * 2 < s.dh := by omega
  have hcol2 : col * 2 < s.dw := by omega
  have hlimit : s.db + row * 2 * s.dw + col * 2 < s.db + s.dw * s.dh :=
    Image.addr_lt_limit (img := dstImage s) hrow2 hcol2
  obtain ⟨v, acc, hout, hread⟩ := hexpanded (row * 2 * s.dw + col * 2) (by omega)
  rw [outIndex_of_position hcol2] at hout
  have hv : v = sourceWord s row col := (outPixel_eq_next hout).trans (expandWord_even s row col)
  rw [outSquash, hxf, hyf, src_eq_next, hsb, hsw, hsh, hmem, ← hv, Nat.add_assoc]
  exact ⟨hrow2, hcol2, by omega, hread⟩

end Sys2Proof.Machine
end

section
/-!
The family 60_exceptions.md: nothing faults, a step of a legal state is refused exactly on the rows
of rule R141 that it can meet, and an idle machine keeps its state.
-/

namespace Sys2Proof.Machine

open Sys2Proof

/-! ## Why an action of the host is refused (rules R61, R66, R71, R145) -/

/-- A command write of an idle core is refused where the word is reserved, and where the command it
names is not admitted. -/
theorem commandWrite_eq_refused {w : Word} {s : State} {e : Refusal} (hidle : s.busy = false)
    (h : commandWrite w s = .refused e) :
    (fieldZero w ≠ 0 ∧ e = .reservedCommand) ∨
      ∃ cmd, decode w = .ok cmd ∧ ¬ Preconditions cmd s ∧ e = .precondition := by
  cases hdecode : decode w with
  | error =>
    have hreserved : fieldZero w ≠ 0 := decode_eq_error.1 hdecode
    rw [commandWrite_reserved hreserved] at h
    cases h
    exact .inl ⟨hreserved, rfl⟩
  | ok cmd =>
    rw [commandWrite_of_decode hdecode] at h
    by_cases hpre : Preconditions cmd s
    · rw [exec_admitted hidle hpre] at h
      cases h
    · rw [exec_not_admitted hidle hpre] at h
      cases h
      exact .inr ⟨cmd, rfl, hpre, rfl⟩

/-- A register write is refused while `BUSY = 1`, unless it is to `STATUS`; on an idle core, at a
reserved offset and where the command write is. -/
theorem regWrite_eq_refused {off : Nat} {w : Word} {s : State} {e : Refusal}
    (h : regWrite off w s = .refused e) :
    (s.busy = true ∧ off ≠ Reg.offset .status ∧ e = .writeWhileBusy) ∨
      (s.busy = false ∧ Reg.ofOffset off = none ∧ e = .reservedOffset) ∨
      (s.busy = false ∧ off = Reg.offset .cmd ∧ commandWrite w s = .refused e) := by
  by_cases hstatus : off = Reg.offset .status
  · rw [hstatus, regWrite_status] at h
    cases h
  cases hbusy : s.busy with
  | true =>
    rw [regWrite_busy hbusy hstatus] at h
    cases h
    exact .inl ⟨rfl, hstatus, rfl⟩
  | false =>
    cases hoff : Reg.ofOffset off with
    | none =>
      rw [regWrite_reserved hbusy hoff] at h
      cases h
      exact .inr (.inl ⟨rfl, rfl, rfl⟩)
    | some r =>
      obtain rfl : off = r.offset := Reg.ofOffset_eq_some.1 hoff
      by_cases hcmd : r = .cmd
      · subst hcmd
        exact .inr (.inr ⟨rfl, rfl, (regWrite_cmd hbusy w).symm.trans h⟩)
      · rw [regWrite_operand hcmd (fun hr => hstatus (congrArg Reg.offset hr)) w hbusy] at h
        cases h

/-- A register read is refused only at a reserved offset. -/
theorem regRead_eq_refused {off : Nat} {s : State} {e : Refusal} (h : regRead off s = .refused e) :
    Reg.ofOffset off = none ∧ e = .reservedOffset := by
  cases hoff : Reg.ofOffset off with
  | none =>
    rw [regRead_reserved hoff] at h
    cases h
    exact ⟨rfl, rfl⟩
  | some r =>
    rw [Reg.ofOffset_eq_some.1 hoff, regRead_offset] at h
    cases h

/-- The refusal of the host's action, on whatever script and schedule it leaves, is the step's. -/
theorem HostMoves.step_refused {s : State} {act : Action} {e : Refusal} (hmoves : HostMoves s act)
    (h : ∀ rest sc, doAction act { s with script := rest, schedule := sc } = .refused e) :
    step s = .refused e := by
  obtain ⟨rest, sc, hstep⟩ := step_of_hostMoves hmoves
  exact hstep.trans (h rest sc)

/-! ## Every refusal is listed (rule R141) -/

/-- Each name under which the host's action is refused has its condition met. -/
theorem HostMoves.refusalCondition {s : State} {act : Action} {rest : List Action}
    {sc : List Turn} {e : Refusal} (hmoves : HostMoves s act)
    (h : doAction act { s with script := rest, schedule := sc } = .refused e) :
    RefusalCondition s e := by
  cases act with
  | wr off w =>
    rcases regWrite_eq_refused h with ⟨hbusy, hoff, rfl⟩ | ⟨hidle, hoff, rfl⟩ | ⟨hidle, rfl, hcmd⟩
    · exact ⟨hbusy, off, w, hmoves, hoff⟩
    · exact .inr ⟨off, Reg.ofOffset_eq_none_iff_reserved.1 hoff, .inr ⟨hidle, w, hmoves⟩⟩
    · rcases commandWrite_eq_refused hidle hcmd with ⟨hreserved, rfl⟩ | ⟨cmd, hdecode, hpre, rfl⟩
      · exact ⟨hidle, w, hmoves, hreserved⟩
      · exact ⟨hidle, w, cmd, hmoves, hdecode, hpre⟩
  | rd off =>
    obtain ⟨hoff, rfl⟩ := regRead_eq_refused h
    exact .inr ⟨off, Reg.ofOffset_eq_none_iff_reserved.1 hoff, .inl hmoves⟩
  | partialAccess off =>
    cases h
    exact .inl ⟨off, hmoves⟩
  | mw a v =>
    rcases hostMemWrite_eq_refused.1 h with ⟨hregion, rfl⟩ | ⟨-, ha, rfl⟩
    · obtain ⟨hbusy, hin⟩ := inFlightRegion_eq_true.1 hregion
      exact ⟨hbusy, a, v, hmoves, hin⟩
    · exact ⟨ha, .inr ⟨v, hmoves⟩⟩
  | mr a =>
    obtain ⟨ha, rfl⟩ := hostMemRead_eq_refused.1 h
    exact ⟨ha, .inl hmoves⟩
  | wait => cases h
  | rst => cases h

/-- The pixel step of a legal state is refused as UnwrittenSource alone, for want of a word it
uses. -/
theorem CorePicks.refusalCondition {s : State} {k : Nat} {e : Refusal} (hlegal : Legal s)
    (hpick : CorePicks s k) (h : step s = .refused e) : RefusalCondition s e := by
  obtain ⟨cmd, hlatch, -⟩ := hlegal.busy_admitted hpick.1
  have hneeds := step_needs hlegal hlatch hpick
  by_cases hwritten : ReadsWritten cmd s k
  · obtain ⟨t, hnext⟩ := hneeds.answers (readsWritten_iff.1 hwritten)
    rw [hnext] at h
    cases h
  · rw [hneeds.refused fun hw => hwritten (readsWritten_iff.2 hw)] at h
    cases h
    exact ⟨cmd, k, hpick, hlatch, hwritten⟩

theorem refusalCondition_of_step_refused {s : State} {e : Refusal} (hlegal : Legal s)
    (h : step s = .refused e) : RefusalCondition s e := by
  rcases step_trichotomy s with ⟨act, hmoves⟩ | ⟨k, hpick⟩ | ⟨t, hnext⟩
  · obtain ⟨rest, sc, hstep⟩ := step_of_hostMoves hmoves
    exact hmoves.refusalCondition (hstep.symm.trans h)
  · exact hpick.refusalCondition hlegal h
  · rw [hnext] at h
    cases h

/-! ## Every condition listed is a refusal (rule R141) -/

/-- `P-FIT`: the regions of a command in flight lie inside the memory (rules R43, R66). -/
theorem Legal.inFlightRegion_lt {s : State} (h : Legal s) {a : Nat}
    (hregion : inFlightRegion s a = true) : a < s.memWords := by
  obtain ⟨hbusy, hin⟩ := inFlightRegion_eq_true.1 hregion
  obtain ⟨cmd, -, hadm⟩ := h.busy_admitted hbusy
  obtain ⟨⟨-, -, -, -, hsrcFit, hdstFit, -⟩, -⟩ := admits_iff_preconditions.1 hadm
  omega

/-- A word past the memory is in no region of a command in flight, so a host write to it is refused
for want of the word. -/
theorem Legal.hostMemWrite_past_memory {s : State} (h : Legal s) {a : Nat} (ha : s.memWords ≤ a)
    (v : Word) : hostMemWrite a v s = .refused (.noSuchWord a) := by
  have hregion : inFlightRegion s a = false := by
    rw [← Bool.not_eq_true]
    exact fun hin => Nat.not_lt.2 ha (h.inFlightRegion_lt hin)
  exact hostMemWrite_eq_refused.2 (.inr ⟨hregion, ha, rfl⟩)

theorem step_refused_of_refusalCondition {s : State} {e : Refusal} (hlegal : Legal s)
    (h : RefusalCondition s e) : step s = .refused e := by
  cases e with
  | precondition =>
    obtain ⟨hidle, w, cmd, hmoves, hdecode, hpre⟩ := h
    refine hmoves.step_refused fun rest sc => ?_
    calc regWrite 0x00 w { s with script := rest, schedule := sc }
        = commandWrite w { s with script := rest, schedule := sc } :=
          regWrite_cmd (s := { s with script := rest, schedule := sc }) hidle w
      _ = exec cmd { s with script := rest, schedule := sc } := commandWrite_of_decode hdecode _
      _ = .refused .precondition :=
          exec_not_admitted (s := { s with script := rest, schedule := sc }) hidle hpre
  | reservedCommand =>
    obtain ⟨hidle, w, hmoves, hreserved⟩ := h
    exact hmoves.step_refused fun rest sc =>
      (regWrite_cmd (s := { s with script := rest, schedule := sc }) hidle w).trans
        (commandWrite_reserved hreserved _)
  | reservedOffset =>
    rcases h with ⟨off, hmoves⟩ | ⟨off, hoff, hmoves | ⟨hidle, w, hmoves⟩⟩
    · exact hmoves.step_refused fun _ _ => rfl
    · exact hmoves.step_refused fun _ _ =>
        regRead_reserved (Reg.ofOffset_eq_none_iff_reserved.2 hoff) _
    · exact hmoves.step_refused fun rest sc =>
        regWrite_reserved (s := { s with script := rest, schedule := sc }) hidle
          (Reg.ofOffset_eq_none_iff_reserved.2 hoff) w
  | writeWhileBusy =>
    obtain ⟨hbusy, off, w, hmoves, hoff⟩ := h
    exact hmoves.step_refused fun rest sc =>
      regWrite_busy (s := { s with script := rest, schedule := sc }) hbusy hoff w
  | hostTouchedBuffer =>
    obtain ⟨hbusy, a, v, hmoves, hin⟩ := h
    exact hmoves.step_refused fun _ _ =>
      hostMemWrite_eq_refused.2 (.inl ⟨inFlightRegion_eq_true.2 ⟨hbusy, hin⟩, rfl⟩)
  | unwrittenSource =>
    obtain ⟨cmd, k, hpick, hlatch, hunwritten⟩ := h
    exact (step_needs hlegal hlatch hpick).refused fun hw => hunwritten (readsWritten_iff.2 hw)
  | noSuchWord a =>
    obtain ⟨ha, hmoves | ⟨v, hmoves⟩⟩ := h
    · exact hmoves.step_refused fun _ _ => hostMemRead_eq_refused.2 ⟨ha, rfl⟩
    · exact hmoves.step_refused fun rest sc =>
        (withClock_legal hlegal sc rest s.readData).hostMemWrite_past_memory ha v
  | notModelled _ | pixelAtOutOfBounds | zeroWidth | emptyAccumulator | channelOutOfRange
  | noCommandLatched => exact h.elim

/-- Settles O48: there is no fault to answer with, each refusal of the mover's step has its
condition met, and each condition names a mover whose step is refused. -/
theorem stepIsRefusedExactlyOnTheListedConditions :
    Obligations.StepIsRefusedExactlyOnTheListedConditions :=
  ⟨fun _ _ => ne_fault, fun _ _ hlegal =>
    ⟨refusalCondition_of_step_refused hlegal, step_refused_of_refusalCondition hlegal⟩⟩

/-! ## The idle machine (rules R149, R161) -/

/-- With no action left the host's move changes nothing. -/
theorem hostStep_nil {s : State} (h : s.script = []) : hostStep s = .next s := by
  simp only [hostStep, h]

/-- Settles O49: an idle core takes no step, and the host has none to take. -/
theorem idleMachineKeepsItsState : Obligations.IdleMachineKeepsItsState :=
  fun _ hidle hscript => (step_idle hidle).trans (hostStep_nil hscript)

end Sys2Proof.Machine
end
